-- ==== Sys2Proof/Word.lean ====
section
/-! DEFINITION. The words of the block: bytes, access words, offsets (spec 00_scope.md R6, R8; 30_encoding.md R70). -/

namespace Sys2Proof

/-- A register, a bus byte, a command byte: 8 bits (00_scope.md R6 `REG_W`, `BUSBYTE_W`). -/
abbrev Byte := BitVec 8

/-- The access word `W << 13 | OFF << 8 | D` (30_encoding.md R70). -/
abbrev AccessWord := BitVec 14

/-- The 5-bit offset field of an access word (30_encoding.md R70). -/
abbrev Offset := BitVec 5

end Sys2Proof
end

