-- ==== Sys2Proof/Config.lean ====
section
/-! DEFINITION. What the spec fixes as a parameter, what it leaves as a named parameter, and the free values
(spec 00_scope.md R6, R7, R9). -/

namespace Sys2Proof.Config

/-- `T_SETTLE_US`, the settle time after enabling in microseconds (00_scope.md R6). -/
def tSettleUs : Nat := 100

/-- The five byte offsets of the register window (20_memory.md R50). -/
def offPrerLo : Nat := 0x00
/-- Offset of PRER_HI (20_memory.md R50). -/
def offPrerHi : Nat := 0x04
/-- Offset of CTR (20_memory.md R50). -/
def offCtr : Nat := 0x08
/-- Offset of TXR on a write and RXR on a read (20_memory.md R50). -/
def offData : Nat := 0x0C
/-- Offset of CR on a write and SR on a read (20_memory.md R50). -/
def offCmd : Nat := 0x10

/-- `P_BIT6`: what SR bit 6 reads (00_scope.md R7, decision D7). -/
inductive Bit6 where
  /-- 1 exactly while a command is pending (the value taken). -/
  | inProgress
  /-- 1 while the bus is held, a draw while a command is pending. -/
  | busHeld
deriving DecidableEq, Repr

/-- `P_TIP_SCOPE`: which pending commands TIP covers (00_scope.md R7, decision D8). -/
inductive TipScope where
  /-- every pending command (the value taken). -/
  | allCommands
  /-- only a pending command with READ or WRITE. -/
  | byteCommands
deriving DecidableEq, Repr

/-- The parameters of 00_scope.md R7 that some rule's step reads.
A state holds one such record and no step changes it (log 10). -/
structure Params where
  /-- `P_BIT6` (D7). -/
  bit6 : Bit6
  /-- `P_TIP_SCOPE` (D8). -/
  tipScope : TipScope
  /-- `P_POLL_LIMIT`: `none` is the unbounded poll, `some N` the timeout extension (D33). -/
  pollLimit : Option Nat
  /-- `T_POLL`, microseconds before each status read of a poll (D33). -/
  tPoll : Nat
  /-- `BUF_CAP`, the capacity of a ByteBuffer, at most 255 by its width (D36). -/
  bufCap : Byte
  /-- `P_EEPROM_ADDR`, the EEPROM's 7-bit slave address (D42). -/
  eepromAddr : BitVec 7
  /-- `P_EUI_OFFSET`, the start offset of the factory ID (D42). -/
  euiOffset : Byte
deriving DecidableEq, Repr

/-- The free values: `draw n` is the n-th `draw()` of a run (00_scope.md R9).
It has no body, so a claim about it holds for every value (log 5). -/
opaque draw : Nat → Byte

/-- OPEN `T_POLL` (00_scope.md R7). -/
opaque tPoll : Nat
/-- OPEN `BUF_CAP` (00_scope.md R7). -/
opaque bufCap : Byte
/-- OPEN `P_EEPROM_ADDR` (00_scope.md R7). -/
opaque eepromAddr : BitVec 7
/-- OPEN `P_EUI_OFFSET` (00_scope.md R7). -/
opaque euiOffset : Byte
/-- OPEN `P_BASE`, the host address of offset 0 (20_memory.md R50); no step reads it (log 11). -/
opaque base : Nat
/-- OPEN `f_scl`, the bus clock of a prescale value (00_scope.md R7); no step reads it (log 11). -/
opaque fScl : BitVec 16 → Nat

/-- The host address the bridge maps to a block offset (20_memory.md R50). -/
def hostAddress (off : Nat) : Nat := base + off

/-- The parameters a run from reset has: the values 00_scope.md R7 takes, the OPEN ones free (log 10). -/
def params : Params where
  bit6 := .inProgress
  tipScope := .allCommands
  pollLimit := none
  tPoll := tPoll
  bufCap := bufCap
  eepromAddr := eepromAddr
  euiOffset := euiOffset

end Sys2Proof.Config
end

