-- ==== Sys2Proof/Syntax.lean ====
section
/-! DEFINITION. The instructions: one constructor per row of spec/opcode_table.json (spec 30_encoding.md R82). -/

namespace Sys2Proof

/-- An instruction of the block is one host access (30_encoding.md R70).
The Bool `i` of a command is its IACK bit (41_commands.md R125). -/
inductive Instr where
  /-- Row 1 `WR_PRERLO`, 40_register_access.md R100. -/
  | wrPrerlo (v : Byte)
  /-- Row 2 `WR_PRERHI`, 40_register_access.md R101. -/
  | wrPrerhi (v : Byte)
  /-- Row 3 `WR_CTR_DISABLE`, 40_register_access.md R102. -/
  | wrCtrDisable
  /-- Row 4 `WR_CTR_ENABLE`, 40_register_access.md R102. -/
  | wrCtrEnable
  /-- Row 5 `WR_CTR_RESERVED`, 40_register_access.md R102. -/
  | wrCtrReserved (v : Byte)
  /-- Row 6 `WR_TXR`, 40_register_access.md R104. -/
  | wrTxr (v : Byte)
  /-- Row 7 `CMD_NOP`, 41_commands.md R126. -/
  | cmdNop
  /-- Row 8 `CMD_IACK`, 41_commands.md R127. -/
  | cmdIack
  /-- Row 9 `CMD_START_WRITE`, 41_commands.md R128. -/
  | cmdStartWrite (i : Bool)
  /-- Row 10 `CMD_WRITE`, 41_commands.md R129. -/
  | cmdWrite (i : Bool)
  /-- Row 11 `CMD_READ`, 41_commands.md R130. -/
  | cmdRead (i : Bool)
  /-- Row 12 `CMD_READ_NACK_STOP`, 41_commands.md R131. -/
  | cmdReadNackStop (i : Bool)
  /-- Row 13 `CMD_STOP`, 41_commands.md R132. -/
  | cmdStop (i : Bool)
  /-- Row 14 `CMD_START_WRITE_STOP`, 41_commands.md R133. -/
  | cmdStartWriteStop (i : Bool)
  /-- Row 15 `CMD_WRITE_STOP`, 41_commands.md R134. -/
  | cmdWriteStop (i : Bool)
  /-- Row 16 `CMD_RESERVED_BITS`, 41_commands.md R120. -/
  | cmdReservedBits (c : Byte)
  /-- Row 17 `CMD_UNFOLDED_STOP`, 41_commands.md R124. -/
  | cmdUnfoldedStop (i : Bool)
  /-- Row 18 `CMD_ACKED_READ_STOP`, 41_commands.md R124. -/
  | cmdAckedReadStop (i : Bool)
  /-- Row 19 `CMD_ILLEGAL`, 41_commands.md R124. -/
  | cmdIllegal (c : Byte)
  /-- Row 20 `RD_PRERLO`, 40_register_access.md R103. -/
  | rdPrerlo
  /-- Row 21 `RD_PRERHI`, 40_register_access.md R103. -/
  | rdPrerhi
  /-- Row 22 `RD_CTR`, 40_register_access.md R103. -/
  | rdCtr
  /-- Row 23 `RD_RXR`, 40_register_access.md R105. -/
  | rdRxr
  /-- Row 24 `RD_SR`, 40_register_access.md R106. -/
  | rdSr
  /-- Row 25 `ACC_UNMAPPED`, 40_register_access.md R107: direction, offset and byte.
  The offset is a natural number, since one that does not fit 5 bits "is unmapped in any case" (R70). -/
  | accUnmapped (w : Bool) (off : Nat) (d : Byte)
deriving DecidableEq, Repr

end Sys2Proof
end

