-- ==== Sys2Proof/WellFormed.lean ====
section
/-! DEFINITION. Which instructions are well formed: those an access word of spec 30_encoding.md R82 encodes. -/

namespace Sys2Proof

/-- The five offsets of the register window (20_memory.md R50). -/
def isMapped (off : Nat) : Bool :=
  off == Config.offPrerLo || off == Config.offPrerHi || off == Config.offCtr ||
    off == Config.offData || off == Config.offCmd

/-- Command bytes that rows 7 to 15 and 17, 18 of 30_encoding.md R82 name, with either IACK bit. -/
def isNamedCommand (c : Byte) : Bool :=
  [0x00, 0x90, 0x10, 0x20, 0x68, 0x40, 0xD0, 0x50, 0x28, 0x60].contains (c &&& 0xFE)

/-- The conditions of the rows of 30_encoding.md R82 on the operands of each constructor. -/
def Instr.WellFormed : Instr → Bool
  | .wrPrerlo _ => true
  | .wrPrerhi _ => true
  | .wrCtrDisable => true
  | .wrCtrEnable => true
  | .wrCtrReserved v => v &&& 0x7F != 0
  | .wrTxr _ => true
  | .cmdNop => true
  | .cmdIack => true
  | .cmdStartWrite _ => true
  | .cmdWrite _ => true
  | .cmdRead _ => true
  | .cmdReadNackStop _ => true
  | .cmdStop _ => true
  | .cmdStartWriteStop _ => true
  | .cmdWriteStop _ => true
  | .cmdReservedBits c => c &&& 0x06 != 0
  | .cmdUnfoldedStop _ => true
  | .cmdAckedReadStop _ => true
  | .cmdIllegal c => c &&& 0x06 == 0 && !isNamedCommand c
  | .rdPrerlo => true
  | .rdPrerhi => true
  | .rdCtr => true
  | .rdRxr => true
  | .rdSr => true
  | .accUnmapped w off d => decide (off < 32) && !isMapped off && (w || d == 0)

end Sys2Proof
end

