-- ==== Sys2Proof/Decode.lean ====
section
/-! DEFINITION. The decoder and the encoder of access words, and the opcode table they follow
(spec 30_encoding.md R70, R72, R82). -/

namespace Sys2Proof

/-- Eight bits as a byte, the most significant first (00_scope.md R8). -/
def byteOfBits (b7 b6 b5 b4 b3 b2 b1 b0 : Bool) : Byte :=
  BitVec.ofBool b7 ++ BitVec.ofBool b6 ++ BitVec.ofBool b5 ++ BitVec.ofBool b4 ++
    BitVec.ofBool b3 ++ BitVec.ofBool b2 ++ BitVec.ofBool b1 ++ BitVec.ofBool b0

/-- The command byte with the fields of 30_encoding.md R72, its reserved bits 0. -/
def commandByte (sta sto rd wr ack iack : Bool) : Byte :=
  byteOfBits sta sto rd wr ack false false iack

/-- `{W, OFF, D}` packed as an access word (30_encoding.md R70). -/
def accessWord (w : Bool) (off : Offset) (d : Byte) : AccessWord :=
  BitVec.ofBool w ++ off ++ d

/-- Bit 13 of an access word: 1 is a write (30_encoding.md R70). -/
def wordIsWrite (w : AccessWord) : Bool := w.getLsbD 13

/-- Bits 12:8 of an access word, the byte offset (30_encoding.md R70). -/
def wordOffset (w : AccessWord) : Offset := w.extractLsb' 8 5

/-- Bits 7:0 of an access word, the byte written (30_encoding.md R70). -/
def wordData (w : AccessWord) : Byte := w.extractLsb' 0 8

/-- A write to CR, rows 7 to 19 of 30_encoding.md R82 in their order: the first match wins. -/
def decodeCommand (c : Byte) : Instr :=
  if c = 0x00 then .cmdNop
  else if c = 0x01 then .cmdIack
  else if c &&& 0xFE = 0x90 then .cmdStartWrite (c.getLsbD 0)
  else if c &&& 0xFE = 0x10 then .cmdWrite (c.getLsbD 0)
  else if c &&& 0xFE = 0x20 then .cmdRead (c.getLsbD 0)
  else if c &&& 0xFE = 0x68 then .cmdReadNackStop (c.getLsbD 0)
  else if c &&& 0xFE = 0x40 then .cmdStop (c.getLsbD 0)
  else if c &&& 0xFE = 0xD0 then .cmdStartWriteStop (c.getLsbD 0)
  else if c &&& 0xFE = 0x50 then .cmdWriteStop (c.getLsbD 0)
  else if c &&& 0x06 ≠ 0 then .cmdReservedBits c
  else if c &&& 0xFE = 0x28 then .cmdUnfoldedStop (c.getLsbD 0)
  else if c &&& 0xFE = 0x60 then .cmdAckedReadStop (c.getLsbD 0)
  else .cmdIllegal c

/-- A write to CTR, rows 3 to 5 of 30_encoding.md R82. -/
def decodeControl (v : Byte) : Instr :=
  if v = 0x00 then .wrCtrDisable
  else if v = 0x80 then .wrCtrEnable
  else .wrCtrReserved v

/-- `MemWrite(off, 1, v)` as an instruction, at any offset (30_encoding.md R70, R82; 20_memory.md R52). -/
def decodeWrite (off : Nat) (v : Byte) : Instr :=
  if off = Config.offPrerLo then .wrPrerlo v
  else if off = Config.offPrerHi then .wrPrerhi v
  else if off = Config.offCtr then decodeControl v
  else if off = Config.offData then .wrTxr v
  else if off = Config.offCmd then decodeCommand v
  else .accUnmapped true off v

/-- `MemRead(off, 1)` as an instruction, at any offset (30_encoding.md R70, R82; 20_memory.md R52). -/
def decodeRead (off : Nat) : Instr :=
  if off = Config.offPrerLo then .rdPrerlo
  else if off = Config.offPrerHi then .rdPrerhi
  else if off = Config.offCtr then .rdCtr
  else if off = Config.offData then .rdRxr
  else if off = Config.offCmd then .rdSr
  else .accUnmapped false off 0

/-- Why a number is no access word (log 1). -/
inductive DecodeError where
  /-- It does not fit the 14 bits of 30_encoding.md R70. -/
  | tooWide
  /-- "a read with `D` non-zero is not a well-formed access word" (30_encoding.md R70). -/
  | readWithData
deriving DecidableEq, Repr

/-- The decoder of access words (30_encoding.md R71): total, rejecting by name. -/
def decodeAccess (w : AccessWord) : Except DecodeError Instr :=
  if wordIsWrite w then .ok (decodeWrite (wordOffset w).toNat (wordData w))
  else if wordData w = 0 then .ok (decodeRead (wordOffset w).toNat)
  else .error .readWithData

/-- The decoder on any number. -/
def decodeWord (n : Nat) : Except DecodeError Instr :=
  if n < 2 ^ 14 then decodeAccess (BitVec.ofNat 14 n) else .error .tooWide

/-- What the decoder reads from an instruction whose bits are w (the table numbers bit 0 as the least
significant bit of the one access word); the bits above nbits are 0. -/
def decodeTableWord (nbits w : Nat) : Option Instr :=
  (decodeWord (w % 2 ^ nbits)).toOption

/-- The access word of an instruction, written from the encodings of 30_encoding.md R82 and R72. -/
def encode : Instr → AccessWord
  | .wrPrerlo v => accessWord true 0b00000 v
  | .wrPrerhi v => accessWord true 0b00100 v
  | .wrCtrDisable => accessWord true 0b01000 0x00
  | .wrCtrEnable => accessWord true 0b01000 0x80
  | .wrCtrReserved v => accessWord true 0b01000 v
  | .wrTxr v => accessWord true 0b01100 v
  | .cmdNop => accessWord true 0b10000 0x00
  | .cmdIack => accessWord true 0b10000 0x01
  | .cmdStartWrite i => accessWord true 0b10000 (commandByte true false false true false i)
  | .cmdWrite i => accessWord true 0b10000 (commandByte false false false true false i)
  | .cmdRead i => accessWord true 0b10000 (commandByte false false true false false i)
  | .cmdReadNackStop i => accessWord true 0b10000 (commandByte false true true false true i)
  | .cmdStop i => accessWord true 0b10000 (commandByte false true false false false i)
  | .cmdStartWriteStop i => accessWord true 0b10000 (commandByte true true false true false i)
  | .cmdWriteStop i => accessWord true 0b10000 (commandByte false true false true false i)
  | .cmdReservedBits c => accessWord true 0b10000 c
  | .cmdUnfoldedStop i => accessWord true 0b10000 (commandByte false false true false true i)
  | .cmdAckedReadStop i => accessWord true 0b10000 (commandByte false true true false false i)
  | .cmdIllegal c => accessWord true 0b10000 c
  | .rdPrerlo => accessWord false 0b00000 0
  | .rdPrerhi => accessWord false 0b00100 0
  | .rdCtr => accessWord false 0b01000 0
  | .rdRxr => accessWord false 0b01100 0
  | .rdSr => accessWord false 0b10000 0
  | .accUnmapped w off d => accessWord w (BitVec.ofNat 5 off) d

/-- A row of spec/opcode_table.json: its order, match, mask, and the row's condition on D where it has one. -/
structure OpcodeRow where
  order : Nat
  pattern : AccessWord
  mask : AccessWord
  /-- The row also asks that some bit of D under this mask is set (rows 5 and 16). -/
  needsOneOf : AccessWord := 0
deriving DecidableEq, Repr

/-- The opcode table of 30_encoding.md R82, in its order. -/
def opcodeTable : List OpcodeRow :=
  [ ⟨1, 0x2000, 0x3F00, 0⟩, ⟨2, 0x2400, 0x3F00, 0⟩, ⟨3, 0x2800, 0x3FFF, 0⟩, ⟨4, 0x2880, 0x3FFF, 0⟩,
    ⟨5, 0x2800, 0x3F00, 0x007F⟩, ⟨6, 0x2C00, 0x3F00, 0⟩, ⟨7, 0x3000, 0x3FFF, 0⟩, ⟨8, 0x3001, 0x3FFF, 0⟩ ] ++
  [ ⟨9, 0x3090, 0x3FFE, 0⟩, ⟨10, 0x3010, 0x3FFE, 0⟩, ⟨11, 0x3020, 0x3FFE, 0⟩, ⟨12, 0x3068, 0x3FFE, 0⟩,
    ⟨13, 0x3040, 0x3FFE, 0⟩, ⟨14, 0x30D0, 0x3FFE, 0⟩, ⟨15, 0x3050, 0x3FFE, 0⟩, ⟨16, 0x3000, 0x3F00, 0x0006⟩,
    ⟨17, 0x3028, 0x3FFE, 0⟩, ⟨18, 0x3060, 0x3FFE, 0⟩, ⟨19, 0x3000, 0x3F00, 0⟩ ] ++
  [ ⟨20, 0x0000, 0x3FFF, 0⟩, ⟨21, 0x0400, 0x3FFF, 0⟩, ⟨22, 0x0800, 0x3FFF, 0⟩, ⟨23, 0x0C00, 0x3FFF, 0⟩,
    ⟨24, 0x1000, 0x3FFF, 0⟩, ⟨25, 0x0000, 0x0000, 0⟩ ]

/-- Does an access word match a row of the table? -/
def OpcodeRow.hit (r : OpcodeRow) (w : AccessWord) : Bool :=
  (w &&& r.mask == r.pattern) && (r.needsOneOf == 0 || w &&& r.needsOneOf != 0)

/-- The order of the first row of the table an access word matches (30_encoding.md R82). -/
def firstRow (w : AccessWord) : Option Nat :=
  (opcodeTable.find? fun r => r.hit w).map OpcodeRow.order

/-- The table row a constructor stands for (30_encoding.md R82). -/
def Instr.rowOrder : Instr → Nat
  | .wrPrerlo _ => 1
  | .wrPrerhi _ => 2
  | .wrCtrDisable => 3
  | .wrCtrEnable => 4
  | .wrCtrReserved _ => 5
  | .wrTxr _ => 6
  | .cmdNop => 7
  | .cmdIack => 8
  | .cmdStartWrite _ => 9
  | .cmdWrite _ => 10
  | .cmdRead _ => 11
  | .cmdReadNackStop _ => 12
  | .cmdStop _ => 13
  | .cmdStartWriteStop _ => 14
  | .cmdWriteStop _ => 15
  | .cmdReservedBits _ => 16
  | .cmdUnfoldedStop _ => 17
  | .cmdAckedReadStop _ => 18
  | .cmdIllegal _ => 19
  | .rdPrerlo => 20
  | .rdPrerhi => 21
  | .rdCtr => 22
  | .rdRxr => 23
  | .rdSr => 24
  | .accUnmapped _ _ _ => 25

end Sys2Proof
end

