-- ==== Sys2Proof/Machine/State.lean ====
section
/-! DEFINITION. The state: the block (spec 10_state.md R41), the run's parameters (00_scope.md R7), the host agent, and
the schedule of the three agents (00_scope.md R13). Plain data. -/

namespace Sys2Proof.Machine

/-- Who may drive the bus next (10_state.md R31). -/
inductive Phase where
  /-- `IDLE`: the bus is free. -/
  | idle
  /-- `HELD_M`: the bus is held and the block drives the data line next. -/
  | heldM
  /-- `HELD_S`: the bus is held and the slave drives the data line next. -/
  | heldS
deriving DecidableEq, Repr

/-- A symbol of the bus trace (42_byte_engine.md R150). The Bool is the bit: true is 1. -/
inductive Symbol where
  /-- A START condition, or a repeated START. -/
  | start
  /-- A STOP condition. -/
  | stop
  /-- `MBIT`: a data bit the block sends. -/
  | mbit (b : Bool)
  /-- `SBIT`: a data bit the slave sends. -/
  | sbit (b : Bool)
  /-- `SACK`: the slave's acknowledge of a byte sent; false is ACK, true is NACK. -/
  | sack (a : Bool)
  /-- `MACK`: the block's acknowledge of a byte received; false is ACK, true is NACK. -/
  | mack (a : Bool)
deriving DecidableEq, Repr

/-- An accepted transfer command (10_state.md R30).
The spec's `wr` bit and `byte` field are one field here: `byte` is "unused" when `wr` is 0 (log 14). -/
structure Command where
  sta : Bool
  sto : Bool
  rd : Bool
  /-- `some b`: WRITE is set and `b` is the byte latched from TXR; `none`: WRITE is not set. -/
  wr : Option Byte
  ack : Bool
deriving DecidableEq, Repr

/-- The codes of 60_exceptions.md R240, in the order E01 to E15. -/
inductive Code where
  /-- E01 -/
  | unmappedOffset
  /-- E02 -/
  | prescaleWhileEnabled
  /-- E03 -/
  | reconfigure
  /-- E04 -/
  | controlReservedBits
  /-- E05 -/
  | disableWhileActive
  /-- E06 -/
  | commandReservedBits
  /-- E07 -/
  | illegalCombination
  /-- E08 -/
  | commandWhileDisabled
  /-- E09 -/
  | commandUnconfigured
  /-- E10 -/
  | commandBeforeSettle
  /-- E11 -/
  | accessDuringTransfer
  /-- E12 -/
  | noStart
  /-- E13 -/
  | wrongDirection
  /-- E14 -/
  | slaveHoldsBus
  /-- E15 -/
  | unfoldedStop
deriving DecidableEq, Repr

/-- Why the machine stops with a fault: the codes of kind fault of 60_exceptions.md R240, and `halted`.
All are the spec's own verdicts on uses the source calls undefined; stopping there is safe. -/
inductive Fault where
  /-- E02. A write of PRER_LO or PRER_HI while EN = 1 (40_register_access.md R100, R101). Safe. -/
  | prescaleWhileEnabled
  /-- E05. A CTR write with EN = 0 while the bus is held (40_register_access.md R102). Safe. -/
  | disableWhileActive
  /-- E08. A transfer command while EN = 0 (41_commands.md R121). Safe. -/
  | commandWhileDisabled
  /-- E09. A transfer command while not configured (41_commands.md R121). Safe. -/
  | commandUnconfigured
  /-- E10. A transfer command before the settle time (41_commands.md R121). Safe. -/
  | commandBeforeSettle
  /-- E11. A transfer command, TXR write or CTR write while a command is pending
  (41_commands.md R121, 40_register_access.md R102, R104). Safe. -/
  | accessDuringTransfer
  /-- E12. WRITE, READ or STOP while the bus is IDLE (41_commands.md R123). Safe. -/
  | noStart
  /-- E13. READ while the master drives the bus (41_commands.md R123). Safe. -/
  | wrongDirection
  /-- E14. A command other than READ in HELD_S, READ+STOP without ACK-suppress (41_commands.md R123, R124), or a STOP
  reached in HELD_S by a completion (42_byte_engine.md R161). `emitted` is what the completion emitted
  before the STOP, empty for an access (log 9). Safe. -/
  | slaveHoldsBus (emitted : List Symbol)
  /-- E15. READ with ACK-suppress but without STOP (41_commands.md R124). Safe. -/
  | unfoldedStop
  /-- The machine stopped before with this code: "no agent has a step" (60_exceptions.md R241). Raised by the
  step function only. Safe. -/
  | halted (c : Code)
deriving DecidableEq, Repr

/-- Why the machine stops with a refusal: the codes of kind refuse of 60_exceptions.md R240, and three of the model. -/
inductive Refusal where
  /-- E01. An access at an offset that is no register (20_memory.md R52, 40_register_access.md R107). Safe. -/
  | unmappedOffset
  /-- E03. A prescale write after configuration (40_register_access.md R100, R101). Safe. -/
  | reconfigure
  /-- E04. A CTR write with any of bits 6:0 set (40_register_access.md R102). Safe. -/
  | controlReservedBits
  /-- E06. A command with bit 2 or bit 1 set (41_commands.md R120). Safe. -/
  | commandReservedBits
  /-- E07. A command bit combination without a meaning (41_commands.md R124). Safe. -/
  | illegalCombination
  /-- The host's next word is no access word (30_encoding.md R70, log 1). Raised by the host's step. Safe. -/
  | malformedAccessWord
  /-- A `write` with more payload bytes than 44_transactions.md R205 allows, refused before any access (log 17).
  Raised when the host begins the call. Safe. -/
  | payloadTooLong
  /-- An instruction without a meaning; no arm answers it. Safe. -/
  | notModelled (mnemonic : String)
deriving DecidableEq, Repr

/-- The state of the block (10_state.md R41). -/
structure Block where
  /-- PRER_LO (R22). -/
  prerLo : Byte
  /-- PRER_HI (R23). -/
  prerHi : Byte
  /-- EN, bit 7 of CTR (R25). -/
  en : Bool
  /-- TXR (R26). -/
  txr : Byte
  /-- RXR (R27). -/
  rxr : Byte
  /-- The accepted transfer command that has not completed (R30). -/
  pending : Option Command
  /-- Who may drive the bus next (R31). -/
  phase : Phase
  /-- The last written byte's acknowledge: `none` is unknown, `some true` is NACK (R32). -/
  rxack : Option Bool
  /-- The interrupt-pending flag IF (R33). -/
  irqFlag : Bool
  /-- PRER_LO was written (R34). -/
  loWritten : Bool
  /-- PRER_HI was written (R34). -/
  hiWritten : Bool
  /-- EN went from 0 to 1 with both prescale bytes written (R34). -/
  configured : Bool
  /-- Microseconds of `Delay` since EN last went from 0 to 1 (R35). -/
  settleUs : Nat
  /-- The sticky fault mark (R36). -/
  fault : Option Code
  /-- The bus trace, oldest symbol first (R37). -/
  trace : List Symbol
deriving DecidableEq, Repr

/-- What a host procedure returns (44_transactions.md R200, 43_status_polling.md R181, 45_eeprom_client.md R223, R224). -/
inductive Result where
  /-- `configure` returns nothing. -/
  | unit
  /-- `poll` returns `ack_received`. -/
  | ack (received : Bool)
  /-- `read`: exactly `count` bytes. -/
  | bytes (b : List Byte)
  /-- `write`: the count `Written(k)`, a u8. -/
  | written (k : Byte)
  /-- `NoAck`. -/
  | noAck
  /-- `Timeout`, only with a poll limit (43_status_polling.md R184). -/
  | timeout
  /-- The 16-bit unique ID. -/
  | uniqueId (v : BitVec 16)
  /-- The 32-bit PROM value. -/
  | promValue (v : BitVec 32)
deriving DecidableEq, Repr

/-- The procedures of the reference host protocol.
A slave address is a byte whose bit 7 is masked, not rejected (30_encoding.md R80). -/
inductive Call where
  /-- 43_status_polling.md R181. -/
  | poll
  /-- 44_transactions.md R201. -/
  | configure (prescale : BitVec 16)
  /-- 44_transactions.md R203. -/
  | read (addr : Byte) (count : Byte)
  /-- 44_transactions.md R206. -/
  | write (addr : Byte) (data : List Byte) (sendStop : Bool)
  /-- 45_eeprom_client.md R220. -/
  | readRegion (slave : Byte) (off : Byte) (count : Byte)
  /-- 45_eeprom_client.md R222. -/
  | writeRegion (slave : Byte) (off : Byte) (payload : List Byte)
  /-- 45_eeprom_client.md R223. -/
  | uniqueId
  /-- 45_eeprom_client.md R224. -/
  | promWrite (v : BitVec 32)
  /-- 45_eeprom_client.md R224. -/
  | promRead
deriving DecidableEq, Repr

/-- The five parts of `configure` (44_transactions.md R201). -/
inductive ConfigureAt where
  | disable
  | low
  | high
  | enable
  | settle
deriving DecidableEq, Repr

/-- The states `P_WAIT` and `P_READ` of ACK POLLING (43_status_polling.md R181). -/
inductive PollAt where
  | wait
  | read
deriving DecidableEq, Repr

/-- What the host does with the answer of a poll. -/
inductive AfterPoll where
  /-- `poll` was called by itself: return its answer. -/
  | answer
  /-- The address phase of `read` (44_transactions.md R203). -/
  | readAddress (count : Byte)
  /-- A READ of `read`: `left` bytes are still to be commanded after this one, `got` are read. -/
  | readByte (left : Nat) (got : List Byte)
  /-- The address phase of `write` (44_transactions.md R206). -/
  | writeAddress (data : List Byte) (sendStop : Bool)
  /-- A payload byte of `write`: it is byte index `k` (the address is 0), `rest` are still to be sent. -/
  | writeByte (k : Nat) (rest : List Byte) (sendStop : Bool)
  /-- The STOP that ends a transaction: return `r` (44_transactions.md R207). -/
  | afterStop (r : Result)
deriving DecidableEq, Repr

/-- Where the host is inside a procedure: its next action and what is still to be done. -/
inductive Task where
  | configure (prescale : BitVec 16) (part : ConfigureAt)
  /-- ACK POLLING after `n` status reads. -/
  | poll (part : PollAt) (n : Nat) (k : AfterPoll)
  /-- `wr 0x0C, busbyte(a, 1)`. -/
  | readSend (addr : Byte) (count : Byte)
  /-- `cmd_start_write` of `read`. -/
  | readStart (count : Byte)
  /-- `cmd_read`, or `cmd_final_read_stop` when `left` is 0: `left` more bytes follow this one. -/
  | readCommand (left : Nat) (got : List Byte)
  /-- `rd 0x0C -> b[i]`. -/
  | readReceive (left : Nat) (got : List Byte)
  /-- `wr 0x0C, busbyte(a, 0)`. -/
  | writeSend (addr : Byte) (data : List Byte) (sendStop : Bool)
  /-- `cmd_start_write` of `write`. -/
  | writeStart (data : List Byte) (sendStop : Bool)
  /-- `wr 0x0C, data[i]`: the byte with index `k`, the address being 0. -/
  | writeData (k : Nat) (b : Byte) (rest : List Byte) (sendStop : Bool)
  /-- `cmd_write`. -/
  | writeCommand (k : Nat) (rest : List Byte) (sendStop : Bool)
  /-- `cmd_stop`, then `poll`, then return `r`. -/
  | stopCommand (r : Result)
deriving DecidableEq, Repr

/-- A procedure that waits for the result of the one it called (45_eeprom_client.md). -/
inductive Frame where
  /-- `read_region` waits for its `write` (R220). -/
  | regionRead (slave : Byte) (count : Byte)
  /-- `unique_id` waits for its `read_region` (R223). -/
  | uniqueId
  /-- `prom_read` waits for its `read_region` (R224). -/
  | promRead
deriving DecidableEq, Repr

/-- A procedure in progress: its position and its callers, the innermost first. -/
structure Proc where
  task : Task
  callers : List Frame
deriving DecidableEq, Repr

/-- A host operation (00_scope.md R9; 30_encoding.md R70, R84). -/
inductive HostOp where
  /-- One access, given as its access word. -/
  | access (word : Nat)
  /-- `MemWrite(off, 1, v)`. -/
  | memWrite (off : Nat) (v : Byte)
  /-- `MemRead(off, 1)`. -/
  | memRead (off : Nat)
  /-- `Delay(t)`, microseconds. -/
  | delay (t : Nat)
  /-- A procedure of the reference host protocol. -/
  | call (c : Call)
deriving DecidableEq, Repr

/-- The host agent (the model's own fields, 00_scope.md R13; log 7, log 15, log 16). -/
structure HostState where
  /-- The operations still to come, the next one first. -/
  program : List HostOp
  /-- The procedure the host is in. -/
  proc : Option Proc
  /-- The byte the last `MemRead` returned. -/
  rdata : Byte
  /-- What finished procedures returned, oldest first. -/
  results : List Result
deriving DecidableEq, Repr

/-- Who takes the next step (00_scope.md R13, 20_memory.md R60; log 2). -/
inductive Turn where
  /-- The host. -/
  | host
  /-- The byte engine, with the slave environment's inputs `a` and `d` (42_byte_engine.md R162). -/
  | complete (a : Bool) (d : Byte)
deriving DecidableEq, Repr

/-- The machine: the block, the host that drives it, and the schedule. -/
structure State where
  /-- The run's parameters; no step changes them (log 10). -/
  params : Config.Params
  /-- The block (10_state.md R41). -/
  block : Block
  /-- The host agent. -/
  host : HostState
  /-- Who moves next; when it is empty the host moves and no completion comes (log 2). -/
  turns : List Turn
  /-- How many free values the run has drawn (log 5). -/
  draws : Nat
deriving DecidableEq, Repr

/-- The outcome of a step of the machine (00_scope.md R14). -/
abbrev Out := Host.Outcome State Fault Refusal

/-- The outcome of a step on the block alone. -/
abbrev BlockOut := Host.Outcome Block Fault Refusal

/-- The block after reset (10_state.md R41); the four values the spec leaves to a draw are draws (log 6). -/
def Block.reset : Block where
  prerLo := Config.draw 0
  prerHi := Config.draw 1
  en := false
  txr := Config.draw 2
  rxr := Config.draw 3
  pending := none
  phase := .idle
  rxack := none
  irqFlag := false
  loWritten := false
  hiWritten := false
  configured := false
  settleUs := 0
  fault := none
  trace := []

/-- The machine right after reset: the block of 10_state.md R41, nothing for the host to do, nothing scheduled
(70_reset_and_hazards.md R270; log 15). -/
def State.reset : State where
  params := Config.params
  block := Block.reset
  host := { program := [], proc := none, rdata := Config.draw 4, results := [] }
  turns := []
  draws := 5

end Sys2Proof.Machine
end

