-- ==== Sys2Proof/Machine/Operands.lean ====
section
/-! DEFINITION. Operand forms: command bits, named commands, bus address byte, status byte fields, byte lists
(spec 30_encoding.md R72, R80, R85; 42_byte_engine.md R152; 43_status_polling.md R180; 45_eeprom_client.md R224, R225). -/

namespace Sys2Proof.Machine

/-- The five transfer bits of a command byte (41_commands.md R120). -/
structure CommandBits where
  sta : Bool
  sto : Bool
  rd : Bool
  wr : Bool
  ack : Bool
deriving DecidableEq, Repr

/-- The transfer bits of a command byte (41_commands.md R120). -/
def CommandBits.ofByte (c : Byte) : CommandBits where
  sta := c.getLsbD 7
  sto := c.getLsbD 6
  rd := c.getLsbD 5
  wr := c.getLsbD 4
  ack := c.getLsbD 3

/-- The bits of `CMD_START_WRITE`, 0x90 (41_commands.md R128). -/
def CommandBits.startWrite : CommandBits := ⟨true, false, false, true, false⟩
/-- The bits of `CMD_WRITE`, 0x10 (41_commands.md R129). -/
def CommandBits.write : CommandBits := ⟨false, false, false, true, false⟩
/-- The bits of `CMD_READ`, 0x20 (41_commands.md R130). -/
def CommandBits.read : CommandBits := ⟨false, false, true, false, false⟩
/-- The bits of `CMD_READ_NACK_STOP`, 0x68 (41_commands.md R131). -/
def CommandBits.readNackStop : CommandBits := ⟨false, true, true, false, true⟩
/-- The bits of `CMD_STOP`, 0x40 (41_commands.md R132). -/
def CommandBits.stop : CommandBits := ⟨false, true, false, false, false⟩
/-- The bits of `CMD_START_WRITE_STOP`, 0xD0 (41_commands.md R133). -/
def CommandBits.startWriteStop : CommandBits := ⟨true, true, false, true, false⟩
/-- The bits of `CMD_WRITE_STOP`, 0x50 (41_commands.md R134). -/
def CommandBits.writeStop : CommandBits := ⟨false, true, false, true, false⟩

/-- The command bytes the host procedures write (30_encoding.md R85). -/
def cmdStartWriteByte : Byte := 0x90
/-- `cmd_write` (30_encoding.md R85). -/
def cmdWriteByte : Byte := 0x10
/-- `cmd_read` (30_encoding.md R85). -/
def cmdReadByte : Byte := 0x20
/-- `cmd_final_read_stop` (30_encoding.md R85). -/
def cmdFinalReadStopByte : Byte := 0x68
/-- `cmd_stop` (30_encoding.md R85). -/
def cmdStopByte : Byte := 0x40
/-- `cmd_iack` (30_encoding.md R85). -/
def cmdIackByte : Byte := 0x01
/-- `core_disable` (30_encoding.md R85). -/
def coreDisableByte : Byte := 0x00
/-- `core_enable` (30_encoding.md R85). -/
def coreEnableByte : Byte := 0x80

/-- The bus address byte of a slave address and a direction (30_encoding.md R80). -/
def busByte (a : Byte) (dir : Bool) : Byte :=
  ((a &&& 0x7F) <<< 1) ||| (if dir then 1 else 0)

/-- The bits of a byte, most significant first (42_byte_engine.md R152). -/
def bitsMsbFirst (b : Byte) : List Bool :=
  [b.getLsbD 7, b.getLsbD 6, b.getLsbD 5, b.getLsbD 4, b.getLsbD 3, b.getLsbD 2, b.getLsbD 1, b.getLsbD 0]

/-- A TransactionStatus (43_status_polling.md R180). -/
structure TransactionStatus where
  inProgress : Bool
  ackReceived : Bool
deriving DecidableEq, Repr

/-- What the host derives from a status byte (43_status_polling.md R180, R182). -/
def TransactionStatus.ofByte (s : Byte) : TransactionStatus where
  inProgress := s.getLsbD 1
  ackReceived := !s.getLsbD 7

/-- A 32-bit word as four bytes, most significant first (45_eeprom_client.md R224). -/
def bigEndianBytes (v : BitVec 32) : List Byte :=
  [v.extractLsb' 24 8, v.extractLsb' 16 8, v.extractLsb' 8 8, v.extractLsb' 0 8]

/-- The result of `prom_read` on the bytes it read (45_eeprom_client.md R224). -/
def promOfBytes : List Byte → Result
  | [b0, b1, b2, b3] => .promValue (b0 ++ b1 ++ b2 ++ b3)
  | b => .bytes b

/-- The result of `unique_id` on the bytes it read (45_eeprom_client.md R223). -/
def uniqueIdOfBytes : List Byte → Result
  | [_, _, _, _, b4, b5] => .uniqueId (b4 ++ b5)
  | b => .bytes b

/-- The numbers A and B of the dotted "192.168.A.B" display of a PROM value (45_eeprom_client.md R225). -/
def dottedTail (v : BitVec 32) : Nat × Nat :=
  ((v.extractLsb' 8 8).toNat, (v.extractLsb' 0 8).toNat)

/-- The digit a character typed at the PROM prompt stands for: "coerced to zero rather than rejected"
(45_eeprom_client.md R225). PRESUMED (log 29): which characters are hex digits. -/
def promptDigit (c : Char) : Nat :=
  if '0' ≤ c ∧ c ≤ '9' then c.toNat - '0'.toNat
  else if 'a' ≤ c ∧ c ≤ 'f' then c.toNat - 'a'.toNat + 10
  else if 'A' ≤ c ∧ c ≤ 'F' then c.toNat - 'A'.toNat + 10
  else 0

/-- The PROM value of the characters typed at the prompt (45_eeprom_client.md R225).
DESIGN CHOICE (log 30): the spec speaks of an 8-hex-digit value only. A shorter line gives the low digits (an empty one
is 0), and a longer one keeps the low 32 bits. -/
def promptValue (cs : List Char) : BitVec 32 :=
  BitVec.ofNat 32 (cs.foldl (fun n c => n * 16 + promptDigit c) 0)

end Sys2Proof.Machine
end

