-- ==== Sys2Proof/Machine/Flags.lean ====
section
/-! DEFINITION. The status byte: every flag the host can read (spec 40_register_access.md R106, 10_state.md R29, R39). -/

namespace Sys2Proof.Machine

/-- RxACK, SR bit 7: the known acknowledge when nothing is pending, else the draw `x`. -/
def rxackFlag (b : Block) (x : Bool) : Bool :=
  match b.pending, b.rxack with
  | none, some a => a
  | _, _ => x

/-- BUSY, SR bit 6, under either value of `P_BIT6`; `x` is the draw of `bus_held` while pending. -/
def busyFlag (p : Config.Params) (b : Block) (x : Bool) : Bool :=
  match p.bit6 with
  | .inProgress => b.pending.isSome
  | .busHeld => if b.pending.isSome then x else b.phase != .idle

/-- AL, SR bit 5: 0 under the single-master premise (60_exceptions.md R250). -/
def alFlag : Bool := false

/-- TIP, SR bit 1, under either value of `P_TIP_SCOPE`. -/
def tipFlag (p : Config.Params) (b : Block) : Bool :=
  match b.pending with
  | none => false
  | some c => p.tipScope == .allCommands || c.rd || c.wr.isSome

/-- The status byte (40_register_access.md R106). The bits the rule draws are taken from the free byte `x`. -/
def statusByte (p : Config.Params) (b : Block) (x : Byte) : Byte :=
  byteOfBits (rxackFlag b (x.getLsbD 7)) (busyFlag p b (x.getLsbD 6)) alFlag
    (x.getLsbD 4) (x.getLsbD 3) (x.getLsbD 2) (tipFlag p b) b.irqFlag

end Sys2Proof.Machine
end

