-- ==== Sys2Proof/Machine/Ops.lean ====
section
/-! DEFINITION. The operations every meaning is written over: updates of the block, the checks of a command, its
acceptance, a read's answer, the free values, the delay, and what a stop keeps. -/

namespace Sys2Proof.Machine

/-! ## Values of the block -/

/-- PRESCALE, `{prer_hi, prer_lo}` (10_state.md R24). -/
def Block.prescale (b : Block) : BitVec 16 := b.prerHi ++ b.prerLo

/-- `S.settled` (10_state.md R35). -/
def Block.settled (b : Block) : Bool := b.en && decide (Config.tSettleUs ≤ b.settleUs)

/-! ## Updates of the block -/

/-- EN from 0 to 1 (40_register_access.md R102). -/
def Block.enable (b : Block) : Block :=
  { b with en := true, settleUs := 0, configured := b.configured || (b.loWritten && b.hiWritten) }

/-- EN to 0, or staying 0 (40_register_access.md R102). -/
def Block.disable (b : Block) : Block := { b with en := false, settleUs := 0 }

/-- `S.irq_flag <- 0` (41_commands.md R127). -/
def Block.clearIrq (b : Block) : Block := { b with irqFlag := false }

/-- `emit` of several symbols in order (00_scope.md R9). -/
def Block.emit (b : Block) (syms : List Symbol) : Block := { b with trace := b.trace ++ syms }

/-- `Delay(t)` as the block observes it (40_register_access.md R108). -/
def Block.delay (t : Nat) (b : Block) : Block :=
  { b with settleUs := if b.en then b.settleUs + t else b.settleUs }

/-- Acceptance of a transfer command: the byte of a WRITE is latched from TXR, IACK clears IF (41_commands.md R122). -/
def Block.accept (c : CommandBits) (iack : Bool) (b : Block) : Block :=
  { b with
    pending := some { sta := c.sta, sto := c.sto, rd := c.rd, wr := if c.wr then some b.txr else none, ack := c.ack }
    irqFlag := b.irqFlag && !iack }

/-! ## Checks: each goes on with `k` when it passes -/

/-- The checks of a prescale write, E02 before E03 (40_register_access.md R100, 60_exceptions.md R248). -/
def Block.checkPrescale (b : Block) (k : BlockOut) : BlockOut :=
  if b.en then .fault .prescaleWhileEnabled
  else if b.configured then .refused .reconfigure
  else k

/-- No TXR write, CTR write or transfer command while one is pending: E11 (70_reset_and_hazards.md R276). -/
def Block.checkNotPending (b : Block) (k : BlockOut) : BlockOut :=
  if b.pending.isSome then .fault .accessDuringTransfer else k

/-- Static legality of the bit combination: E07, E15, E14 in this order (41_commands.md R124). -/
def CommandBits.checkStatic (c : CommandBits) (k : BlockOut) : BlockOut :=
  if (c.rd && c.wr) || (c.sta && c.rd) || (c.sta && !c.wr) || (c.ack && !c.rd) then .refused .illegalCombination
  else if c.rd && c.ack && !c.sto then .fault .unfoldedStop
  else if c.rd && c.sto && !c.ack then .fault (.slaveHoldsBus [])
  else k

/-- Preconditions of a transfer command: E11, E08, E09, E10 in this order (41_commands.md R121). -/
def Block.checkReady (b : Block) (k : BlockOut) : BlockOut :=
  b.checkNotPending <|
    if !b.en then .fault .commandWhileDisabled
    else if !b.configured then .fault .commandUnconfigured
    else if b.settleUs < Config.tSettleUs then .fault .commandBeforeSettle
    else k

/-- Phase legality: E12, E13, E14 by the table of 41_commands.md R123. -/
def Block.checkPhase (b : Block) (c : CommandBits) (k : BlockOut) : BlockOut :=
  match b.phase with
  | .idle => if c.sta then k else .fault .noStart
  | .heldM => if c.rd then .fault .wrongDirection else k
  | .heldS => if c.rd then k else .fault (.slaveHoldsBus [])

/-! ## Register writes of the block -/

/-- A write of CTR, all of 40_register_access.md R102. -/
def Block.writeControl (v : Byte) (b : Block) : BlockOut :=
  if v &&& 0x7F ≠ 0 then .refused .controlReservedBits
  else b.checkNotPending <|
    if v.getLsbD 7 = false ∧ b.phase ≠ .idle then .fault .disableWhileActive
    else if v.getLsbD 7 then .next (if b.en then b else b.enable)
    else .next b.disable

/-- A transfer command: the checks in the order of 41_commands.md R120, then acceptance. -/
def Block.transfer (c : CommandBits) (iack : Bool) (b : Block) : BlockOut :=
  c.checkStatic <| b.checkReady <| b.checkPhase c <| .next (b.accept c iack)

/-- A write of the command register, all of 41_commands.md R120. -/
def Block.writeCommandRegister (c : Byte) (b : Block) : BlockOut :=
  if c &&& 0x06 ≠ 0 then .refused .commandReservedBits
  else if c &&& 0xFE = 0 then .next (if c.getLsbD 0 then b.clearIrq else b)
  else b.transfer (CommandBits.ofByte c) (c.getLsbD 0)

/-! ## Operations on the machine -/

/-- Apply a function to the next state, leaving a stop as it is. -/
def mapNext (f : State → State) : Out → Out
  | .next s => .next (f s)
  | .fault r => .fault r
  | .refused r => .refused r

/-- The machine with another block. -/
def State.withBlock (s : State) (b : Block) : State := { s with block := b }

/-- The machine with another program still to come. -/
def State.withProgram (s : State) (ops : List HostOp) : State := { s with host := { s.host with program := ops } }

/-- The machine with another schedule still to come. -/
def State.withTurns (s : State) (l : List Turn) : State := { s with turns := l }

/-- A step of the block as a step of the machine. -/
def State.onBlock (s : State) : BlockOut → Out
  | .next b => .next (s.withBlock b)
  | .fault r => .fault r
  | .refused r => .refused r

/-- A read returns the byte `x` to the host; the block is as it was (20_memory.md R56; log 7). -/
def State.answer (s : State) (x : Byte) : State := { s with host := { s.host with rdata := x } }

/-- The next free value of the run (00_scope.md R9; log 5). -/
def State.nextDraw (s : State) : Byte := Config.draw s.draws

/-- A read that draws: the byte `x` is returned and one free value is used up (log 5). -/
def State.answerDrawn (s : State) (x : Byte) : State := { s.answer x with draws := s.draws + 1 }

/-- `Delay(t)` (40_register_access.md R108). -/
def State.delay (t : Nat) (s : State) : State := s.withBlock (s.block.delay t)

/-! ## What a stop keeps (60_exceptions.md R241, R244)

The block has no trap mechanism (60_exceptions.md R249): a stop is the one exceptional event, and this is
its one description. -/

/-- The code of a fault (60_exceptions.md R240); a halted machine keeps its code. -/
def Fault.code : Fault → Code
  | .prescaleWhileEnabled => .prescaleWhileEnabled
  | .disableWhileActive => .disableWhileActive
  | .commandWhileDisabled => .commandWhileDisabled
  | .commandUnconfigured => .commandUnconfigured
  | .commandBeforeSettle => .commandBeforeSettle
  | .accessDuringTransfer => .accessDuringTransfer
  | .noStart => .noStart
  | .wrongDirection => .wrongDirection
  | .slaveHoldsBus _ => .slaveHoldsBus
  | .unfoldedStop => .unfoldedStop
  | .halted c => c

/-- The symbols emitted before the fault: only a completion's E14 has any (42_byte_engine.md R161). -/
def Fault.emitted : Fault → List Symbol
  | .slaveHoldsBus syms => syms
  | _ => []

/-- The code of a refusal; a refusal of the model's own has none (60_exceptions.md R240; log 1, log 17). -/
def Refusal.code : Refusal → Option Code
  | .unmappedOffset => some .unmappedOffset
  | .reconfigure => some .reconfigure
  | .controlReservedBits => some .controlReservedBits
  | .commandReservedBits => some .commandReservedBits
  | .illegalCombination => some .illegalCombination
  | _ => none

/-- The block a fault leaves: the code, the symbols emitted before it, and nothing else (60_exceptions.md R241). -/
def Block.stopWith (b : Block) (f : Fault) : Block :=
  { b with fault := some f.code, trace := b.trace ++ f.emitted }

/-- The block a refusal leaves (60_exceptions.md R241). -/
def Block.refuseWith (b : Block) (r : Refusal) : Block :=
  match r.code with
  | some c => { b with fault := some c }
  | none => b

/-- The state the model keeps after a step from `s` with this outcome: the next state, or the state before the step
with the stop recorded (60_exceptions.md R241, R244; log 8). -/
def State.keep (s : State) : Out → State
  | .next t => t
  | .fault f => s.withBlock (s.block.stopWith f)
  | .refused r => s.withBlock (s.block.refuseWith r)

/-- The number of a code, E01 to E15 (60_exceptions.md R240). -/
def Code.number : Code → Nat
  | .unmappedOffset => 1
  | .prescaleWhileEnabled => 2
  | .reconfigure => 3
  | .controlReservedBits => 4
  | .disableWhileActive => 5
  | .commandReservedBits => 6
  | .illegalCombination => 7
  | .commandWhileDisabled => 8
  | .commandUnconfigured => 9
  | .commandBeforeSettle => 10
  | .accessDuringTransfer => 11
  | .noStart => 12
  | .wrongDirection => 13
  | .slaveHoldsBus => 14
  | .unfoldedStop => 15

end Sys2Proof.Machine
end

