-- ==== Sys2Proof/Machine/Access.lean ====
section
/-! DEFINITION. The meanings of the register accesses, rows 1 to 6 and 20 to 25 (spec 40_register_access.md).
They start after the common preamble: the step function checks the sticky fault (60_exceptions.md R241). -/

namespace Sys2Proof.Machine

/-- `WR_PRERLO` (40_register_access.md R100). -/
def execWrPrerlo (v : Byte) (s : State) : Out :=
  s.onBlock (s.block.checkPrescale (.next { s.block with prerLo := v, loWritten := true }))

/-- `WR_PRERHI` (40_register_access.md R101). -/
def execWrPrerhi (v : Byte) (s : State) : Out :=
  s.onBlock (s.block.checkPrescale (.next { s.block with prerHi := v, hiWritten := true }))

/-- `WR_CTR_DISABLE`, a CTR write of 0x00 (40_register_access.md R102). -/
def execWrCtrDisable (s : State) : Out := s.onBlock (s.block.writeControl 0x00)

/-- `WR_CTR_ENABLE`, a CTR write of 0x80 (40_register_access.md R102). -/
def execWrCtrEnable (s : State) : Out := s.onBlock (s.block.writeControl 0x80)

/-- `WR_CTR_RESERVED`: "refusal E04 for any value other than 0x00 and 0x80" (40_register_access.md R102). -/
def execWrCtrReserved (_v : Byte) (_s : State) : Out := .refused .controlReservedBits

/-- `WR_TXR` (40_register_access.md R104). -/
def execWrTxr (v : Byte) (s : State) : Out :=
  s.onBlock (s.block.checkNotPending (.next { s.block with txr := v }))

/-- `RD_PRERLO` returns a draw (40_register_access.md R103). -/
def execRdPrerlo (s : State) : Out := .next (s.answerDrawn s.nextDraw)

/-- `RD_PRERHI` returns a draw (40_register_access.md R103). -/
def execRdPrerhi (s : State) : Out := .next (s.answerDrawn s.nextDraw)

/-- `RD_CTR` returns a draw (40_register_access.md R103). -/
def execRdCtr (s : State) : Out := .next (s.answerDrawn s.nextDraw)

/-- `RD_RXR`: RXR when nothing is pending, else a draw (40_register_access.md R105). -/
def execRdRxr (s : State) : Out :=
  if s.block.pending.isSome then .next (s.answerDrawn s.nextDraw) else .next (s.answer s.block.rxr)

/-- `RD_SR`: the status byte, its open bits drawn (40_register_access.md R106). -/
def execRdSr (s : State) : Out := .next (s.answerDrawn (statusByte s.params s.block s.nextDraw))

/-- `ACC_UNMAPPED`: "refusal E01, always, in every state" (40_register_access.md R107). -/
def execAccUnmapped (_w : Bool) (_off : Nat) (_d : Byte) (_s : State) : Out := .refused .unmappedOffset

end Sys2Proof.Machine
end

