-- ==== Sys2Proof/Machine/Commands.lean ====
section
/-! DEFINITION. The meanings of the writes to the command register, rows 7 to 19 (spec 41_commands.md).
A transfer command is accepted here; its work on the bus is the completion step of Engine.lean. -/

namespace Sys2Proof.Machine

/-- `CMD_NOP`, command byte 0x00: no effect (41_commands.md R126). -/
def execCmdNop (s : State) : Out := .next s

/-- `CMD_IACK`, command byte 0x01: clears IF (41_commands.md R127). -/
def execCmdIack (s : State) : Out := .next (s.withBlock s.block.clearIrq)

/-- `CMD_START_WRITE`, 0x90 or 0x91 (41_commands.md R128). -/
def execCmdStartWrite (i : Bool) (s : State) : Out := s.onBlock (s.block.transfer .startWrite i)

/-- `CMD_WRITE`, 0x10 or 0x11 (41_commands.md R129). -/
def execCmdWrite (i : Bool) (s : State) : Out := s.onBlock (s.block.transfer .write i)

/-- `CMD_READ`, 0x20 or 0x21 (41_commands.md R130). -/
def execCmdRead (i : Bool) (s : State) : Out := s.onBlock (s.block.transfer .read i)

/-- `CMD_READ_NACK_STOP`, 0x68 or 0x69 (41_commands.md R131). -/
def execCmdReadNackStop (i : Bool) (s : State) : Out := s.onBlock (s.block.transfer .readNackStop i)

/-- `CMD_STOP`, 0x40 or 0x41 (41_commands.md R132). -/
def execCmdStop (i : Bool) (s : State) : Out := s.onBlock (s.block.transfer .stop i)

/-- `CMD_START_WRITE_STOP`, 0xD0 or 0xD1 (41_commands.md R133). -/
def execCmdStartWriteStop (i : Bool) (s : State) : Out := s.onBlock (s.block.transfer .startWriteStop i)

/-- `CMD_WRITE_STOP`, 0x50 or 0x51 (41_commands.md R134). -/
def execCmdWriteStop (i : Bool) (s : State) : Out := s.onBlock (s.block.transfer .writeStop i)

/-- `CMD_RESERVED_BITS`: refused E06 before any other check (41_commands.md R120). -/
def execCmdReservedBits (_c : Byte) (_s : State) : Out := .refused .commandReservedBits

/-- `CMD_UNFOLDED_STOP`, 0x28 or 0x29: fault E15 before any check of the state (41_commands.md R124). -/
def execCmdUnfoldedStop (_i : Bool) (_s : State) : Out := .fault .unfoldedStop

/-- `CMD_ACKED_READ_STOP`, 0x60 or 0x61: fault E14 before any check of the state (41_commands.md R124). -/
def execCmdAckedReadStop (_i : Bool) (_s : State) : Out := .fault (.slaveHoldsBus [])

/-- `CMD_ILLEGAL`: refused E07 before any check of the state (41_commands.md R124). -/
def execCmdIllegal (_c : Byte) (_s : State) : Out := .refused .illegalCombination

end Sys2Proof.Machine
end

