-- ==== Sys2Proof/Machine/Dispatch.lean ====
section
/-! DEFINITION. One arm per instruction: each calls its meaning (spec 30_encoding.md R82). -/

namespace Sys2Proof.Machine

def exec (i : Instr) (s : State) : Host.Outcome State Fault Refusal :=
  match i with
  | .wrPrerlo v => Sys2Proof.Machine.execWrPrerlo v s
  | .wrPrerhi v => Sys2Proof.Machine.execWrPrerhi v s
  | .wrCtrDisable => Sys2Proof.Machine.execWrCtrDisable s
  | .wrCtrEnable => Sys2Proof.Machine.execWrCtrEnable s
  | .wrCtrReserved v => Sys2Proof.Machine.execWrCtrReserved v s
  | .wrTxr v => Sys2Proof.Machine.execWrTxr v s
  | .cmdNop => Sys2Proof.Machine.execCmdNop s
  | .cmdIack => Sys2Proof.Machine.execCmdIack s
  | .cmdStartWrite j => Sys2Proof.Machine.execCmdStartWrite j s
  | .cmdWrite j => Sys2Proof.Machine.execCmdWrite j s
  | .cmdRead j => Sys2Proof.Machine.execCmdRead j s
  | .cmdReadNackStop j => Sys2Proof.Machine.execCmdReadNackStop j s
  | .cmdStop j => Sys2Proof.Machine.execCmdStop j s
  | .cmdStartWriteStop j => Sys2Proof.Machine.execCmdStartWriteStop j s
  | .cmdWriteStop j => Sys2Proof.Machine.execCmdWriteStop j s
  | .cmdReservedBits c => Sys2Proof.Machine.execCmdReservedBits c s
  | .cmdUnfoldedStop j => Sys2Proof.Machine.execCmdUnfoldedStop j s
  | .cmdAckedReadStop j => Sys2Proof.Machine.execCmdAckedReadStop j s
  | .cmdIllegal c => Sys2Proof.Machine.execCmdIllegal c s
  | .rdPrerlo => Sys2Proof.Machine.execRdPrerlo s
  | .rdPrerhi => Sys2Proof.Machine.execRdPrerhi s
  | .rdCtr => Sys2Proof.Machine.execRdCtr s
  | .rdRxr => Sys2Proof.Machine.execRdRxr s
  | .rdSr => Sys2Proof.Machine.execRdSr s
  | .accUnmapped w off d => Sys2Proof.Machine.execAccUnmapped w off d s

end Sys2Proof.Machine
end

