-- ==== Sys2Proof/Machine/Engine.lean ====
section
/-! DEFINITION. The byte engine: the START/STOP generator, the byte serializer and deserializer, the ACK detector, and
the completion step (spec 42_byte_engine.md R153 to R164). -/

namespace Sys2Proof.Machine

/-- The symbols of a byte the block sends (42_byte_engine.md R156). -/
def sentBits (b : Byte) : List Symbol := (bitsMsbFirst b).map .mbit

/-- The symbols of a byte the slave sends (42_byte_engine.md R154). -/
def receivedBits (d : Byte) : List Symbol := (bitsMsbFirst d).map .sbit

/-- START generator (42_byte_engine.md R153). -/
def Block.startPart (p : Command) (b : Block) : Block :=
  if p.sta then { b.emit [.start] with phase := .heldM } else b

/-- The phase after the acknowledge `a` of a written byte (42_byte_engine.md R160). -/
def phaseAfterWrite (p : Command) (byte : Byte) (a : Bool) : Phase :=
  if p.sta && !a && byte.getLsbD 0 then .heldS else .heldM

/-- Byte serializer and ACK detector (42_byte_engine.md R156, R157). -/
def Block.writePart (p : Command) (a : Bool) (b : Block) : Block :=
  match p.wr with
  | some byte =>
    { b.emit (sentBits byte ++ [.sack a]) with rxack := some a, phase := phaseAfterWrite p byte a }
  | none => { b with rxack := none }

/-- Byte deserializer and master acknowledge (42_byte_engine.md R154, R155). -/
def Block.readPart (p : Command) (d : Byte) (b : Block) : Block :=
  if p.rd then
    { b.emit (receivedBits d ++ [.mack p.ack]) with rxr := d, phase := if p.ack then .heldM else .heldS }
  else b

/-- Everything a command does before its STOP, in the order of 42_byte_engine.md R151. -/
def Block.beforeStop (p : Command) (a : Bool) (d : Byte) (b : Block) : Block :=
  ((b.startPart p).writePart p a).readPart p d

/-- STOP generator (42_byte_engine.md R159). -/
def Block.stopPart (b : Block) : Block := { b.emit [.stop] with phase := .idle }

/-- Completion bookkeeping (42_byte_engine.md R158). -/
def Block.finish (b : Block) : Block := { b with pending := none, irqFlag := true }

/-- The completion step of a pending command with the inputs `a` and `d` (42_byte_engine.md R164).
With nothing pending it is not enabled: the turn passes without effect (log 3). -/
def Block.complete (a : Bool) (d : Byte) (b : Block) : BlockOut :=
  match b.pending with
  | none => .next b
  | some p =>
    let t := b.beforeStop p a d
    if p.sto then
      if t.phase = .heldS then .fault (.slaveHoldsBus (t.trace.drop b.trace.length))
      else .next t.stopPart.finish
    else .next t.finish

end Sys2Proof.Machine
end

