-- ==== Sys2Proof/Machine/Procedures.lean ====
section
/-! DEFINITION. The reference host protocol as a machine: ACK POLLING, configure, read, write and the EEPROM client
(spec 43_status_polling.md, 44_transactions.md, 45_eeprom_client.md). A task has one action, an access or a delay, and a
continuation; control flow between two actions takes no step (log 16). -/

namespace Sys2Proof.Machine

/-- One action of the host (00_scope.md R9). -/
inductive Action where
  /-- `MemWrite(off, 1, v)`. -/
  | write (off : Nat) (v : Byte)
  /-- `MemRead(off, 1)`. -/
  | read (off : Nat)
  /-- `Delay(t)`. -/
  | delay (t : Nat)
deriving DecidableEq, Repr

/-- Where the host goes after an action: on to a task, or back to the caller with a result. -/
inductive Control where
  | goto (t : Task)
  | ret (r : Result)
deriving DecidableEq, Repr

/-- The action of a task. -/
def Task.action (p : Config.Params) : Task → Action
  | .configure _ .disable => .write Config.offCtr coreDisableByte
  | .configure v .low => .write Config.offPrerLo (v.extractLsb' 0 8)
  | .configure v .high => .write Config.offPrerHi (v.extractLsb' 8 8)
  | .configure _ .enable => .write Config.offCtr coreEnableByte
  | .configure _ .settle => .delay Config.tSettleUs
  | .poll .wait _ _ => .delay p.tPoll
  | .poll .read _ _ => .read Config.offCmd
  | .readSend a _ => .write Config.offData (busByte a true)
  | .readStart _ => .write Config.offCmd cmdStartWriteByte
  | .readCommand left _ => .write Config.offCmd (if left = 0 then cmdFinalReadStopByte else cmdReadByte)
  | .readReceive _ _ => .read Config.offData
  | .writeSend a _ _ => .write Config.offData (busByte a false)
  | .writeStart _ _ => .write Config.offCmd cmdStartWriteByte
  | .writeData _ b _ _ => .write Config.offData b
  | .writeCommand _ _ _ => .write Config.offCmd cmdWriteByte
  | .stopCommand _ => .write Config.offCmd cmdStopByte

/-- Start a poll (43_status_polling.md R181). -/
def pollThen (k : AfterPoll) : Control := .goto (.poll .wait 0 k)

/-- The payload loop of `write`: `k` bytes are acknowledged, the address among them (44_transactions.md R206). -/
def writeLoop (k : Nat) (rest : List Byte) (sendStop : Bool) : Control :=
  match rest with
  | b :: rest => .goto (.writeData k b rest sendStop)
  | [] =>
    if sendStop then .goto (.stopCommand (.written (BitVec.ofNat 8 k)))
    else .ret (.written (BitVec.ofNat 8 k))

/-- What the host does when a poll returns `ack` (44_transactions.md R203, R206, R207). -/
def AfterPoll.resume (ack : Bool) : AfterPoll → Control
  | .answer => .ret (.ack ack)
  | .readAddress count =>
    if ack then
      match count.toNat with
      | 0 => .ret (.bytes [])
      | n + 1 => .goto (.readCommand n [])
    else .goto (.stopCommand .noAck)
  | .readByte left got => .goto (.readReceive left got)
  | .writeAddress data sendStop =>
    if ack then writeLoop 1 data sendStop else .goto (.stopCommand .noAck)
  | .writeByte k rest sendStop =>
    if ack then writeLoop (k + 1) rest sendStop else .goto (.stopCommand (.written (BitVec.ofNat 8 k)))
  | .afterStop r => .ret r

/-- One status read of a poll, the `n`-th when it is counted (43_status_polling.md R181, R184). -/
def pollResume (limit : Option Nat) (n : Nat) (k : AfterPoll) (s : Byte) : Control :=
  let status := TransactionStatus.ofByte s
  if !status.inProgress then k.resume status.ackReceived
  else
    match limit with
    | some m => if m ≤ n then .ret .timeout else .goto (.poll .wait n k)
    | none => .goto (.poll .wait n k)

/-- Where the host goes after the action of a task; `x` is the byte its read returned. -/
def Task.resume (p : Config.Params) (x : Byte) : Task → Control
  | .configure v .disable => .goto (.configure v .low)
  | .configure v .low => .goto (.configure v .high)
  | .configure v .high => .goto (.configure v .enable)
  | .configure v .enable => .goto (.configure v .settle)
  | .configure _ .settle => .ret .unit
  | .poll .wait n k => .goto (.poll .read n k)
  | .poll .read n k => pollResume p.pollLimit (n + 1) k x
  | .readSend _ count => .goto (.readStart count)
  | .readStart count => pollThen (.readAddress count)
  | .readCommand left got => pollThen (.readByte left got)
  | .readReceive left got =>
    match left with
    | 0 => .ret (.bytes (got ++ [x]))
    | n + 1 => .goto (.readCommand n (got ++ [x]))
  | .writeSend _ data sendStop => .goto (.writeStart data sendStop)
  | .writeStart data sendStop => pollThen (.writeAddress data sendStop)
  | .writeData k _ rest sendStop => .goto (.writeCommand k rest sendStop)
  | .writeCommand k rest sendStop => pollThen (.writeByte k rest sendStop)
  | .stopCommand r => pollThen (.afterStop r)

/-- A procedure that ended, or one that goes on. -/
inductive Progress where
  | running (p : Proc)
  | done (r : Result)
deriving DecidableEq, Repr

/-- Return a result to the callers (45_eeprom_client.md R220, R223, R224). A `Timeout` goes up unchanged
(43_status_polling.md R184). -/
def returnTo (r : Result) : List Frame → Progress
  | [] => .done r
  | .regionRead slave count :: callers =>
    match r with
    | .written k =>
      if k = 2 then .running { task := .readSend slave count, callers := callers } else returnTo .noAck callers
    | .timeout => returnTo .timeout callers
    | _ => returnTo .noAck callers
  | .uniqueId :: callers =>
    match r with
    | .bytes b => returnTo (uniqueIdOfBytes b) callers
    | r => returnTo r callers
  | .promRead :: callers =>
    match r with
    | .bytes b => returnTo (promOfBytes b) callers
    | r => returnTo r callers

/-- Follow a control decision of the innermost procedure. -/
def Control.follow (callers : List Frame) : Control → Progress
  | .goto t => .running { task := t, callers := callers }
  | .ret r => returnTo r callers

/-- Begin `write`: the payload bounds of 44_transactions.md R205 are checked before any access (log 17). -/
def beginWrite (p : Config.Params) (a : Byte) (data : List Byte) (sendStop : Bool) (callers : List Frame) :
    Except Refusal Proc :=
  if data.length ≤ 254 ∧ data.length ≤ p.bufCap.toNat then
    .ok { task := .writeSend a data sendStop, callers := callers }
  else .error .payloadTooLong

/-- Begin a call of the host (43_status_polling.md R181; 44_transactions.md R201, R203, R206; 45_eeprom_client.md R220,
R222, R223, R224). -/
def Call.begin (p : Config.Params) : Call → Except Refusal Proc
  | .poll => .ok { task := .poll .wait 0 .answer, callers := [] }
  | .configure v => .ok { task := .configure v .disable, callers := [] }
  | .read a count => .ok { task := .readSend a count, callers := [] }
  | .write a data sendStop => beginWrite p a data sendStop []
  | .readRegion slave off count => beginWrite p slave [off] false [.regionRead slave count]
  | .writeRegion slave off payload => beginWrite p slave (off :: payload) true []
  | .uniqueId =>
    beginWrite p (p.eepromAddr.setWidth 8) [p.euiOffset] false [.regionRead (p.eepromAddr.setWidth 8) 6, .uniqueId]
  | .promWrite v => beginWrite p (p.eepromAddr.setWidth 8) (0 :: bigEndianBytes v) true []
  | .promRead =>
    beginWrite p (p.eepromAddr.setWidth 8) [0] false [.regionRead (p.eepromAddr.setWidth 8) 4, .promRead]

/-- The host after an action of a procedure: still inside it, or its result recorded. -/
def HostState.follow (h : HostState) : Progress → HostState
  | .running p => { h with proc := some p }
  | .done r => { h with proc := none, results := h.results ++ [r] }

end Sys2Proof.Machine
end

