-- ==== Sys2Proof/Machine/Agents.lean ====
section
/-! DEFINITION. A step of the host and a step of the byte engine (spec 00_scope.md R13, 20_memory.md R55, R60). -/

namespace Sys2Proof.Machine

/-- Perform one action of the host: an access runs its instruction, at any offset (30_encoding.md R70). -/
def State.act (s : State) : Action → Out
  | .write off v => exec (decodeWrite off v) s
  | .read off => exec (decodeRead off) s
  | .delay t => .next (s.delay t)

/-- The host goes on inside its procedure after the action (log 16). -/
def State.proceed (q : Proc) (t : State) : State :=
  { t with host := t.host.follow ((q.task.resume t.params t.host.rdata).follow q.callers) }

/-- One action of the procedure `q` the host is in. -/
def State.runProc (s : State) (q : Proc) : Out :=
  mapNext (State.proceed q) (s.act (q.task.action s.params))

/-- One operation of the host's program. -/
def State.runOp (s : State) : HostOp → Out
  | .access w =>
    match decodeWord w with
    | .ok i => exec i s
    | .error _ => .refused .malformedAccessWord
  | .memWrite off v => s.act (.write off v)
  | .memRead off => s.act (.read off)
  | .delay t => s.act (.delay t)
  | .call c =>
    match c.begin s.params with
    | .ok q => s.runProc q
    | .error r => .refused r

/-- A step of the host: its procedure's next action, else its program's next operation, else nothing (log 4). -/
def State.hostStep (s : State) : Out :=
  match s.host.proc with
  | some q => s.runProc q
  | none =>
    match s.host.program with
    | op :: rest => (s.withProgram rest).runOp op
    | [] => .next s

/-- A step of the byte engine with the environment's inputs (42_byte_engine.md R164). -/
def State.engineStep (s : State) (a : Bool) (d : Byte) : Out := s.onBlock (s.block.complete a d)

/-- The step of the agent whose turn it is; an empty schedule leaves the turn to the host (log 2). -/
def State.agentStep (s : State) : Out :=
  match s.turns with
  | [] => s.hostStep
  | .host :: rest => (s.withTurns rest).hostStep
  | .complete a d :: rest => (s.withTurns rest).engineStep a d

/-- The host runs this access word next, and it is the host's turn (log 15). -/
def State.fetching (s : State) (word : Nat) : State :=
  { s with
    host := { s.host with program := .access word :: s.host.program, proc := none }
    turns := .host :: s.turns }

end Sys2Proof.Machine
end

