-- ==== Sys2Proof/Machine/Step.lean ====
section
/-! DEFINITION. One step of the machine (spec 00_scope.md R13, R14; 60_exceptions.md R241). -/

namespace Sys2Proof.Machine

/-- One step: none once the machine has stopped, else the step of the agent whose turn it is. -/
def step (s : State) : Host.Outcome State Fault Refusal :=
  match s.block.fault with
  | some c => .fault (.halted c)
  | none => s.agentStep

/-- The state after one step, a stop recorded in it (60_exceptions.md R241, R244; log 8). -/
def stepKept (s : State) : State := s.keep (step s)

/-- `s` with the access word stored where the host's next step takes its access from. -/
def State.withFetchWord (s : State) (nbits w : Nat) : State := s.fetching (w % 2 ^ nbits)

end Sys2Proof.Machine
end

