-- ==== Sys2Proof/Safety.lean ====
section
/-! DEFINITION. What counts as a safe run, the invariant of the block, the environment's premise, and the schedules and
outcomes the claims about transactions speak of (spec 10_state.md R31, 60_exceptions.md R251, 44_transactions.md). -/

namespace Sys2Proof.Machine

/-- `k` steps of the machine, stopping at the first stop: `Host.Core.run` of `Sys2Proof.core` in the model's own names. -/
def runFor : Nat → State → Out
  | 0, s => .next s
  | k + 1, s =>
    match step s with
    | .next t => runFor k t
    | .fault f => .fault f
    | .refused r => .refused r

/-- The machine takes a next step from `s`. -/
def Safe (s : State) : Prop := ∃ t, step s = .next t

/-- The machine takes `k` next steps from `s` (60_exceptions.md R241: a run that raises no fault). -/
def SafeFor (k : Nat) (s : State) : Prop := ∃ t, runFor k s = .next t

/-- The environment progress premise `EnvProgress` over a run from `s`: whenever a command is pending, a completion
happens, unless the host stops the machine first by an access that is no read and no delay (60_exceptions.md R251).
A claim that a program ends states it. -/
def EnvProgress (s : State) : Prop :=
  ∀ n t, runFor n s = .next t → t.block.pending ≠ none →
    ∃ m, ∀ u, runFor m t = .next u → u.block.pending = none

/-! ## The invariant -/

/-- The transfer bits of a pending command. -/
def Command.bits (p : Command) : CommandBits := ⟨p.sta, p.sto, p.rd, p.wr.isSome, p.ack⟩

/-- The commands the block accepts: rows 9 to 15 of 30_encoding.md R82. -/
def CommandBits.admitted : List CommandBits :=
  [.startWrite, .write, .read, .readNackStop, .stop, .startWriteStop, .writeStop]

/-- The transfer instructions, rows 9 to 15, with their bits and their IACK bit. -/
def transferOf : Instr → Option (CommandBits × Bool)
  | .cmdStartWrite i => some (.startWrite, i)
  | .cmdWrite i => some (.write, i)
  | .cmdRead i => some (.read, i)
  | .cmdReadNackStop i => some (.readNackStop, i)
  | .cmdStop i => some (.stop, i)
  | .cmdStartWriteStop i => some (.startWriteStop, i)
  | .cmdWriteStop i => some (.writeStop, i)
  | _ => none

/-- A pending command is one of those the block accepts. -/
def Command.Admitted (p : Command) : Prop := p.bits ∈ CommandBits.admitted

/-- The commands a phase allows (41_commands.md R123). -/
def Phase.Allows (c : CommandBits) : Phase → Prop
  | .idle => c.sta = true
  | .heldM => c.rd = false
  | .heldS => c.rd = true

/-- The phase a bus trace leaves, read from its last symbol backwards (10_state.md R31): the bus is free before the
first START and after a STOP; the slave drives next after an acknowledged address byte with direction bit 1 and after
a read byte the block acknowledged; else the block does. `none` where no completed command ends so. -/
def phaseOfReversed : List Symbol → Option Phase
  | [] => some .idle
  | .stop :: _ => some .idle
  | .mack a :: _ => some (if a then .heldM else .heldS)
  | .sack a :: .mbit dir :: .mbit _ :: .mbit _ :: .mbit _ :: .mbit _ :: .mbit _ :: .mbit _ :: .mbit _ :: rest =>
    match rest with
    | .start :: _ => some (if !a && dir then .heldS else .heldM)
    | _ => some .heldM
  | _ => none

/-- The phase a bus trace leaves (10_state.md R31). -/
def phaseOfTrace (trace : List Symbol) : Option Phase := phaseOfReversed trace.reverse

/-- The invariant of the block. -/
structure Block.Inv (b : Block) : Prop where
  /-- `configured` is only set with both prescale bytes written (10_state.md R34). -/
  written : b.configured = true → b.loWritten = true ∧ b.hiWritten = true
  /-- The bus is held only by an enabled, configured and settled block (41_commands.md R121). -/
  held : b.phase ≠ .idle → b.configured = true ∧ b.settled = true
  /-- A pending command passed every check of 41_commands.md R120. -/
  pending : ∀ p, b.pending = some p → b.configured = true ∧ b.settled = true ∧ p.Admitted ∧ b.phase.Allows p.bits
  /-- The phase is the one the bus trace leaves (10_state.md R31). -/
  traced : phaseOfTrace b.trace = some b.phase

/-- A block ready for a transfer command: the preconditions of 41_commands.md R121. -/
def Block.Ready (b : Block) : Prop :=
  b.pending = none ∧ b.en = true ∧ b.configured = true ∧ Config.tSettleUs ≤ b.settleUs

/-! ## Schedules and outcomes of transactions -/

/-- A completion's inputs `(a, d)` (42_byte_engine.md R162). -/
abbrev Inputs := Bool × Byte

/-- The turn in which the engine completes with these inputs. -/
def Inputs.turn (x : Inputs) : Turn := .complete x.1 x.2

/-- A byte sent under the eager schedule: TXR, the command, its completion, and a poll of one status read. -/
def sendTurns (x : Inputs) : List Turn := [.host, .host, x.turn, .host, .host]

/-- A byte received under the eager schedule: the command, its completion, a poll of one status read, and RXR. -/
def receiveTurns (x : Inputs) : List Turn := [.host, x.turn, .host, .host, .host]

/-- A STOP under the eager schedule: the command, its completion, and a poll of one status read. -/
def stopTurns (x : Inputs) : List Turn := [.host, x.turn, .host, .host]

/-- The eager schedule of a `write` whose bytes, the address first, complete with `ins`. -/
def writeTurns (sendStop : Bool) (last : Inputs) : List Inputs → List Turn
  | [] => if sendStop then stopTurns last else []
  | x :: ins => sendTurns x ++ (if x.1 then stopTurns last else writeTurns sendStop last ins)

/-- What a `write` puts on the bus after its START (44_transactions.md R208). -/
def writeTrace (sendStop : Bool) : List Byte → List Inputs → List Symbol
  | b :: bs, x :: ins => sentBits b ++ .sack x.1 :: (if x.1 then [.stop] else writeTrace sendStop bs ins)
  | _, _ => if sendStop then [.stop] else []

/-- The result of a `write` with `k` bytes acknowledged so far (44_transactions.md R205, R208). -/
def writeResult (k : Nat) : List Inputs → Result
  | [] => .written (BitVec.ofNat 8 k)
  | x :: ins => if x.1 then (if k = 0 then .noAck else .written (BitVec.ofNat 8 k)) else writeResult (k + 1) ins

/-- Does a `write` end with a STOP (44_transactions.md R208)? -/
def writeStops (sendStop : Bool) (ins : List Inputs) : Bool := sendStop || ins.any (·.1)

/-- The eager schedule of the payload of a `read`. -/
def readTurns (ins : List Inputs) : List Turn := ins.flatMap receiveTurns

/-- What the payload of a `read` puts on the bus (44_transactions.md R204). -/
def readTrace : List Inputs → List Symbol
  | [] => []
  | [x] => receivedBits x.2 ++ [.mack true, .stop]
  | x :: ins => receivedBits x.2 ++ .mack false :: readTrace ins

end Sys2Proof.Machine
end

