-- ==== Sys2Proof/Certificates/Slice0/Obligations.lean ====
section
/-! DEFINITION. The statements for the provers. A statement about a free value (`Config.draw`) holds for every value. -/

open Sys2Proof Sys2Proof.Machine

/-! ## Encoding (30_encoding.md) -/

/-- R70, R82: decoding the access word of a well-formed instruction gives the instruction back, with every operand. -/
def Obligations.DecodeOfEncodeIsTheInstruction : Prop :=
  ∀ i : Instr, i.WellFormed = true → decodeWord (encode i).toNat = .ok i

/-- R70, R82: a number that decodes is the access word of the instruction it decodes to, which is well formed. -/
def Obligations.EncodeOfDecodeIsTheWord : Prop :=
  ∀ (n : Nat) (i : Instr), decodeWord n = .ok i → (encode i).toNat = n ∧ i.WellFormed = true

/-- R82: "Rows are matched in the order listed, and the first match wins." -/
def Obligations.DecodeFollowsTheFirstMatchingRow : Prop :=
  ∀ (n : Nat) (i : Instr), decodeWord n = .ok i → firstRow (BitVec.ofNat 14 n) = some i.rowOrder

/-- R70: which numbers are no access word: those of more than 14 bits, and "a read with `D` non-zero". -/
def Obligations.MalformedWordsAreRejectedByName : Prop :=
  ∀ n : Nat, (decodeWord n = .error .tooWide ↔ 2 ^ 14 ≤ n) ∧
    (decodeWord n = .error .readWithData ↔ n < 2 ^ 13 ∧ n % 2 ^ 8 ≠ 0)

/-- R82: ten words written out bit by bit from the table decode to the instructions of their rows. -/
def Obligations.WordsWrittenOutDecodeToTheirRows : Prop :=
  decodeWord 0b10000010100101 = .ok (.wrPrerlo 0xA5) ∧ decodeWord 0b10010000000100 = .ok (.wrPrerhi 0x04) ∧
  decodeWord 0b10100010000000 = .ok .wrCtrEnable ∧ decodeWord 0b10110010100000 = .ok (.wrTxr 0xA0) ∧
  decodeWord 0b11000010010000 = .ok (.cmdStartWrite false) ∧ decodeWord 0b11000001101001 = .ok (.cmdReadNackStop true) ∧
  decodeWord 0b11000000000110 = .ok (.cmdReservedBits 0x06) ∧ decodeWord 0b11000010000000 = .ok (.cmdIllegal 0x80) ∧
  decodeWord 0b01000000000000 = .ok .rdSr ∧ decodeWord 0b11010000000000 = .ok (.accUnmapped true 0x14 0)

/-- R80: bit 0 of the bus address byte is the direction, bits 7:1 are the low seven bits of the address. -/
def Obligations.BusAddressByteIsMaskedAddressAndDirection : Prop :=
  ∀ (a : Byte) (dir : Bool), (busByte a dir).getLsbD 0 = dir ∧
    ∀ k, k < 7 → (busByte a dir).getLsbD (k + 1) = a.getLsbD k

/-! ## Steps -/

/-- R13, R70: the step that fetches an access word is `exec` of the instruction it decodes to, from the program
(whoever placed it) and through `withFetchWord`; the primitives run the instruction of their offset. A step of the
engine is the completion step of its block. -/
def Obligations.StepRunsTheDecodedAccess : Prop :=
  (∀ (s : State) (nbits w : Nat) (i : Instr), s.block.fault = none → s.host.proc = none →
    decodeTableWord nbits w = some i → step (s.withFetchWord nbits w) = exec i s) ∧
  (∀ (s : State) (n : Nat) (i : Instr) (rest : List HostOp) (turns : List Turn), s.block.fault = none →
    s.host.proc = none → s.host.program = .access n :: rest → decodeWord n = .ok i →
    (s.turns = [] → step s = exec i (s.withProgram rest)) ∧
    (s.turns = .host :: turns → step s = exec i ((s.withTurns turns).withProgram rest))) ∧
  (∀ (s : State) (off : Nat) (v : Byte) (rest : List HostOp), s.block.fault = none → s.host.proc = none →
    s.turns = [] →
    (s.host.program = .memWrite off v :: rest → step s = exec (decodeWrite off v) (s.withProgram rest)) ∧
    (s.host.program = .memRead off :: rest → step s = exec (decodeRead off) (s.withProgram rest))) ∧
  (∀ (s : State) (a : Bool) (d : Byte) (rest : List Turn), s.block.fault = none → s.turns = .complete a d :: rest →
    step s = (s.withTurns rest).onBlock (s.block.complete a d))

/-- R241: once the machine has stopped, "no agent has a step", and the state kept stays as it is. -/
def Obligations.StoppedMachineTakesNoStep : Prop :=
  ∀ (s : State) (c : Code), s.block.fault = some c → step s = .fault (.halted c) ∧ stepKept s = s

/-- R244: a stop raised by a host access is precise: the state kept is the state before the access plus the code. -/
def Obligations.StopsOfTheHostArePrecise : Prop :=
  ∀ s : State, s.block.fault = none → (∀ a d, s.turns.head? ≠ some (.complete a d)) →
    (∀ f, step s = .fault f → stepKept s = s.withBlock { s.block with fault := some f.code }) ∧
    (∀ r c, step s = .refused r → r.code = some c → stepKept s = s.withBlock { s.block with fault := some c })

/-- No step changes the parameters of the run, and a next state bears no fault mark (10_state.md R36, R40). -/
def Obligations.StepKeepsParametersAndNoFaultMark : Prop :=
  ∀ s t : State, step s = .next t → t.params = s.params ∧ s.block.fault = none ∧ t.block.fault = none

/-! ## Register accesses (40_register_access.md) -/

/-- R100, R101: E02 before E03; else the byte is stored and its written mark set. A pending command implies EN = 1 by the
invariant of InvariantIsKeptByEveryStep, so a write during a transfer is E02. -/
def Obligations.PrescaleWritesStoreTheirByte : Prop :=
  ∀ (v : Byte) (s : State),
    (s.block.en = true → exec (.wrPrerlo v) s = .fault .prescaleWhileEnabled ∧
      exec (.wrPrerhi v) s = .fault .prescaleWhileEnabled) ∧
    (s.block.en = false → s.block.configured = true → exec (.wrPrerlo v) s = .refused .reconfigure ∧
      exec (.wrPrerhi v) s = .refused .reconfigure) ∧
    (s.block.en = false → s.block.configured = false →
      exec (.wrPrerlo v) s = .next (s.withBlock { s.block with prerLo := v, loWritten := true }) ∧
      exec (.wrPrerhi v) s = .next (s.withBlock { s.block with prerHi := v, hiWritten := true })) ∧
    (s.block.Inv → s.block.pending ≠ none → exec (.wrPrerlo v) s = .fault .prescaleWhileEnabled ∧
      exec (.wrPrerhi v) s = .fault .prescaleWhileEnabled) ∧
    (encode (.wrPrerlo v)).toNat = 0x2000 + v.toNat ∧ (encode (.wrPrerhi v)).toNat = 0x2400 + v.toNat

/-- R102: a CTR write other than 0x00 and 0x80 is refused E04; else it faults E11 while a command is pending; else 0x00
faults E05 while the bus is held and clears EN and the settle count otherwise; 0x80 sets EN from 0, restarts the settle
count and sets `configured` if both prescale bytes were written, and changes nothing if EN is 1. -/
def Obligations.ControlWriteEnablesAndDisables : Prop :=
  ∀ s : State,
    (∀ v, exec (.wrCtrReserved v) s = .refused .controlReservedBits) ∧
    (∀ v, decodeWrite 0x8 v = .wrCtrReserved v ↔ v ≠ 0x00 ∧ v ≠ 0x80) ∧
    (decodeWrite 0x8 0x00 = .wrCtrDisable ∧ decodeWrite 0x8 0x80 = .wrCtrEnable) ∧
    (s.block.pending ≠ none →
      exec .wrCtrDisable s = .fault .accessDuringTransfer ∧ exec .wrCtrEnable s = .fault .accessDuringTransfer) ∧
    (s.block.pending = none → s.block.phase ≠ .idle → exec .wrCtrDisable s = .fault .disableWhileActive) ∧
    (s.block.pending = none → s.block.phase = .idle →
      exec .wrCtrDisable s = .next (s.withBlock { s.block with en := false, settleUs := 0 })) ∧
    (s.block.pending = none → s.block.en = false →
      exec .wrCtrEnable s = .next (s.withBlock { s.block with
        en := true, settleUs := 0, configured := s.block.configured || (s.block.loWritten && s.block.hiWritten) })) ∧
    (s.block.pending = none → s.block.en = true → exec .wrCtrEnable s = .next s) ∧
    ((encode .wrCtrDisable).toNat = 0x2800 ∧ (encode .wrCtrEnable).toNat = 0x2880 ∧
      ∀ v, (encode (.wrCtrReserved v)).toNat = 0x2800 + v.toNat)

/-- R103: a read of PRER_LO, PRER_HI or CTR returns some byte and changes no state of the block. -/
def Obligations.WriteOnlyRegistersReadSomeByte : Prop :=
  (∀ (s : State) (i : Instr), i ∈ [Instr.rdPrerlo, .rdPrerhi, .rdCtr] →
    ∃ x, exec i s = .next { s with host := { s.host with rdata := x }, draws := s.draws + 1 }) ∧
  ((encode .rdPrerlo).toNat = 0x0000 ∧ (encode .rdPrerhi).toNat = 0x0400 ∧ (encode .rdCtr).toNat = 0x0800)

/-- R104: a TXR write faults with E11 while a command is pending, else it stores the byte and changes nothing else. -/
def Obligations.TransmitWriteStoresTheByte : Prop :=
  ∀ (v : Byte) (s : State),
    (s.block.pending ≠ none → exec (.wrTxr v) s = .fault .accessDuringTransfer) ∧
    (s.block.pending = none → exec (.wrTxr v) s = .next (s.withBlock { s.block with txr := v })) ∧
    (encode (.wrTxr v)).toNat = 0x2C00 + v.toNat

/-- R105: RXR when nothing is pending, else some byte; the block is as it was. -/
def Obligations.ReceiveReadReturnsTheByte : Prop :=
  (∀ s : State,
    (s.block.pending = none → exec .rdRxr s = .next { s with host := { s.host with rdata := s.block.rxr } }) ∧
    (s.block.pending ≠ none →
      ∃ x, exec .rdRxr s = .next { s with host := { s.host with rdata := x }, draws := s.draws + 1 })) ∧
  (encode .rdRxr).toNat = 0x0C00

/-- The model's choice (log 5): the byte a read draws is the run's next free value, `Config.draw` of the counter, and the
bits of a status byte that are drawn are its bits. -/
def Obligations.DrawingReadsReturnTheNextFreeValue : Prop :=
  ∀ s : State,
    (∀ i ∈ [Instr.rdPrerlo, .rdPrerhi, .rdCtr], exec i s = .next (s.answerDrawn (Config.draw s.draws))) ∧
    (s.block.pending ≠ none → exec .rdRxr s = .next (s.answerDrawn (Config.draw s.draws))) ∧
    ∃ x, exec .rdSr s = .next (s.answerDrawn x) ∧
      (∀ k, 2 ≤ k → k ≤ 4 → x.getLsbD k = (Config.draw s.draws).getLsbD k) ∧
      (s.block.pending ≠ none ∨ s.block.rxack = none → x.getLsbD 7 = (Config.draw s.draws).getLsbD 7) ∧
      (s.params.bit6 = .busHeld → s.block.pending ≠ none → x.getLsbD 6 = (Config.draw s.draws).getLsbD 6)

/-- R106: a status read completes, changes no state of the block, and returns a byte whose bits are as the rule says
under either value of both parameters; nothing is said of a bit the rule draws. -/
def Obligations.StatusReadReturnsTheFlags : Prop :=
  (encode .rdSr).toNat = 0x1000 ∧ ∀ s : State, ∃ x : Byte,
    exec .rdSr s = .next { s with host := { s.host with rdata := x }, draws := s.draws + 1 } ∧
    (∀ a, s.block.pending = none → s.block.rxack = some a → x.getLsbD 7 = a) ∧
    (s.params.bit6 = .inProgress → x.getLsbD 6 = s.block.pending.isSome) ∧
    (s.params.bit6 = .busHeld → s.block.pending = none → x.getLsbD 6 = (s.block.phase != .idle)) ∧
    x.getLsbD 5 = false ∧
    (s.block.pending = none → x.getLsbD 1 = false) ∧
    (∀ c, s.block.pending = some c → x.getLsbD 1 = (s.params.tipScope == .allCommands || c.rd || c.wr.isSome)) ∧
    x.getLsbD 0 = s.block.irqFlag

/-- R107: an access at an offset that is not one of the five is refused with E01, in every state: a write or
a read by offset, and the row itself. -/
def Obligations.UnmappedAccessesAreRefusedInEveryState : Prop :=
  ∀ (w : Bool) (off : Nat) (d : Byte) (s : State),
    exec (.accUnmapped w off d) s = .refused .unmappedOffset ∧
    (off ≠ 0x0 → off ≠ 0x4 → off ≠ 0x8 → off ≠ 0xC → off ≠ 0x10 →
      s.act (.write off d) = .refused .unmappedOffset ∧ s.act (.read off) = .refused .unmappedOffset)

/-- R108: a delay adds to the settle count while the block is enabled, and changes nothing else: as an operation of the
program, and wherever else the host delays. -/
def Obligations.DelayCountsOnlyWhileEnabled : Prop :=
  ∀ (s : State) (n : Nat) (rest : List HostOp), s.block.fault = none → s.host.proc = none → s.turns = [] →
    s.host.program = .delay n :: rest →
    (s.block.en = true →
      step s = .next ((s.withProgram rest).withBlock { s.block with settleUs := s.block.settleUs + n })) ∧
    (s.block.en = false → step s = .next (s.withProgram rest)) ∧
    ∀ u : State, u.act (.delay n) =
      .next (if u.block.en then u.withBlock { u.block with settleUs := u.block.settleUs + n } else u)

/-- R56, read column: an accepted read access changes no state of the block. -/
def Obligations.ReadsChangeNoStateOfTheBlock : Prop :=
  ∀ (off : Nat) (s t : State), exec (decodeRead off) s = .next t →
    t.block = s.block ∧ t.params = s.params ∧ t.turns = s.turns ∧ t.host.program = s.host.program ∧
      t.host.proc = s.host.proc ∧ t.host.results = s.host.results

/-! ## Commands (41_commands.md) -/

/-- R126, R127: 0x00 has no effect and 0x01 clears IF, in every state. -/
def Obligations.NoTransferCommandsRunInEveryState : Prop :=
  ((encode .cmdNop).toNat = 0x3000 ∧ (encode .cmdIack).toNat = 0x3001) ∧ ∀ s : State, exec .cmdNop s = .next s ∧
    exec .cmdIack s = .next (s.withBlock { s.block with irqFlag := false })

/-- R120: the instruction the decoder gives a command byte does what the checks of R120, in their order, say of
that byte. -/
def Obligations.CommandByteFollowsTheOrderedChecks : Prop :=
  ∀ (c : Byte) (s : State), exec (decodeWrite 0x10 c) s = s.onBlock (s.block.writeCommandRegister c)

/-- R122: CMD_START_WRITE, CMD_WRITE, CMD_READ, CMD_READ_NACK_STOP, CMD_STOP, CMD_START_WRITE_STOP and CMD_WRITE_STOP,
with either IACK bit, complete in every state that meets R121 and whose phase allows the command (R123): they become
the pending command, a WRITE with the byte of TXR, IACK clears IF, and nothing else changes. The spec calls the meaning
of CMD_START_WRITE_STOP and CMD_WRITE_STOP INFERRED (log 22); their acceptance is R122's as for the others. -/
def Obligations.TransferCommandsAreAccepted : Prop :=
  ∀ (i : Instr) (c : CommandBits) (k : Bool) (s : State), transferOf i = some (c, k) →
    s.block.Ready → s.block.phase.Allows c →
    exec i s = .next (s.withBlock { s.block with
      pending := some { sta := c.sta, sto := c.sto, rd := c.rd, ack := c.ack,
                        wr := if c.wr then some s.block.txr else none }
      irqFlag := s.block.irqFlag && !k })

/-- R121: the preconditions of every transfer command, in their order E11, E08, E09, E10. -/
def Obligations.TransferPreconditionsFaultInOrder : Prop :=
  ∀ (i : Instr) (c : CommandBits) (k : Bool) (s : State), transferOf i = some (c, k) →
    (s.block.pending ≠ none → exec i s = .fault .accessDuringTransfer) ∧
    (s.block.pending = none → s.block.en = false → exec i s = .fault .commandWhileDisabled) ∧
    (s.block.pending = none → s.block.en = true → s.block.configured = false →
      exec i s = .fault .commandUnconfigured) ∧
    (s.block.pending = none → s.block.en = true → s.block.configured = true → s.block.settleUs < 100 →
      exec i s = .fault .commandBeforeSettle)

/-- R123: the table of phases, for every transfer command that meets R121. -/
def Obligations.PhaseTableDecidesTransfers : Prop :=
  ∀ (i : Instr) (c : CommandBits) (k : Bool) (s : State), transferOf i = some (c, k) → s.block.Ready →
    (s.block.phase = .idle →
      if c.sta then ∃ t, exec i s = .next t else exec i s = .fault .noStart) ∧
    (s.block.phase = .heldM →
      if c.rd then exec i s = .fault .wrongDirection else ∃ t, exec i s = .next t) ∧
    (s.block.phase = .heldS →
      if c.rd then ∃ t, exec i s = .next t else exec i s = .fault (.slaveHoldsBus []))

/-- R124: command bytes that stop whatever the state: after the reserved bits (E06) the illegal combinations E07, E15,
E14 in this order; and the four rows of such bytes. -/
def Obligations.StaticallyIllegalCommandsStopInEveryState : Prop :=
  ∀ (c : Byte) (s : State),
    (c.getLsbD 2 = true ∨ c.getLsbD 1 = true → exec (decodeWrite 0x10 c) s = .refused .commandReservedBits) ∧
    (c.getLsbD 2 = false → c.getLsbD 1 = false →
      (c.getLsbD 5 = true ∧ c.getLsbD 4 = true ∨ c.getLsbD 7 = true ∧ c.getLsbD 5 = true ∨
        c.getLsbD 7 = true ∧ c.getLsbD 4 = false ∨ c.getLsbD 3 = true ∧ c.getLsbD 5 = false →
        exec (decodeWrite 0x10 c) s = .refused .illegalCombination) ∧
      (c.getLsbD 7 = false → c.getLsbD 5 = true → c.getLsbD 4 = false → c.getLsbD 3 = true → c.getLsbD 6 = false →
        exec (decodeWrite 0x10 c) s = .fault .unfoldedStop) ∧
      (c.getLsbD 7 = false → c.getLsbD 5 = true → c.getLsbD 4 = false → c.getLsbD 6 = true → c.getLsbD 3 = false →
        exec (decodeWrite 0x10 c) s = .fault (.slaveHoldsBus []))) ∧
    (exec (.cmdReservedBits c) s = .refused .commandReservedBits ∧
      exec (.cmdIllegal c) s = .refused .illegalCombination ∧
      (∀ k, exec (.cmdUnfoldedStop k) s = .fault .unfoldedStop) ∧
      (∀ k, exec (.cmdAckedReadStop k) s = .fault (.slaveHoldsBus [])))

/-- R125, which the spec marks as INFERRED for commands other than 0x01 (log 22): on an accepted command or a no-transfer
write, IACK clears IF; without it IF keeps its value; and IACK has no other effect: the write with the bit does what the
write without it does, and IF is cleared in the next state. -/
def Obligations.IackBitClearsTheFlagOfAcceptedCommands : Prop :=
  (∀ (c : Byte) (s t : State), exec (decodeWrite 0x10 c) s = .next t →
    t.block.irqFlag = (s.block.irqFlag && !c.getLsbD 0)) ∧
  ∀ (c : Byte) (s : State), exec (decodeWrite 0x10 (c ||| 0x01)) s =
    mapNext (fun t => t.withBlock { t.block with irqFlag := false }) (exec (decodeWrite 0x10 (c &&& 0xFE)) s)

/-! ## Byte engine (42_byte_engine.md) -/

/-- R152, general knowledge by the spec's own mark (log 21): a byte is sent and received most significant bit first. -/
def Obligations.BytesGoMostSignificantBitFirst : Prop :=
  ∀ b : Byte,
    sentBits b = [.mbit (b.getLsbD 7), .mbit (b.getLsbD 6), .mbit (b.getLsbD 5), .mbit (b.getLsbD 4),
      .mbit (b.getLsbD 3), .mbit (b.getLsbD 2), .mbit (b.getLsbD 1), .mbit (b.getLsbD 0)] ∧
    receivedBits b = [.sbit (b.getLsbD 7), .sbit (b.getLsbD 6), .sbit (b.getLsbD 5), .sbit (b.getLsbD 4),
      .sbit (b.getLsbD 3), .sbit (b.getLsbD 2), .sbit (b.getLsbD 1), .sbit (b.getLsbD 0)]

/-- R128, R153, R156, R157, R160: the completion of START+WRITE. -/
def Obligations.AddressPhaseCompletes : Prop :=
  ∀ (b : Block) (byte : Byte) (a : Bool) (d : Byte),
    b.pending = some { sta := true, sto := false, rd := false, wr := some byte, ack := false } →
    b.complete a d = .next { b with
      pending := none, irqFlag := true, rxack := some a
      phase := if a = false ∧ byte.getLsbD 0 = true then .heldS else .heldM
      trace := b.trace ++ .start :: sentBits byte ++ [.sack a] }

/-- R129, R134, R156, R157, R159: the completions of WRITE and of WRITE+STOP. The spec calls the meaning of WRITE+STOP
INFERRED (R134, log 22). -/
def Obligations.PayloadWriteCompletes : Prop :=
  ∀ (b : Block) (byte : Byte) (a : Bool) (d : Byte),
    (b.pending = some { sta := false, sto := false, rd := false, wr := some byte, ack := false } →
      b.complete a d = .next { b with
        pending := none, irqFlag := true, rxack := some a, phase := .heldM
        trace := b.trace ++ sentBits byte ++ [.sack a] }) ∧
    (b.pending = some { sta := false, sto := true, rd := false, wr := some byte, ack := false } →
      b.complete a d = .next { b with
        pending := none, irqFlag := true, rxack := some a, phase := .idle
        trace := b.trace ++ sentBits byte ++ [.sack a, .stop] })

/-- R130, R131, R154, R155, R159: the completions of READ and of READ with ACK-suppress and STOP. -/
def Obligations.ReadCompletes : Prop :=
  ∀ (b : Block) (a : Bool) (d : Byte),
    (b.pending = some { sta := false, sto := false, rd := true, wr := none, ack := false } →
      b.complete a d = .next { b with
        pending := none, irqFlag := true, rxack := none, rxr := d, phase := .heldS
        trace := b.trace ++ receivedBits d ++ [.mack false] }) ∧
    (b.pending = some { sta := false, sto := true, rd := true, wr := none, ack := true } →
      b.complete a d = .next { b with
        pending := none, irqFlag := true, rxack := none, rxr := d, phase := .idle
        trace := b.trace ++ receivedBits d ++ [.mack true, .stop] })

/-- R132, R159: the completion of STOP in the phase in which it is accepted. -/
def Obligations.StopCompletes : Prop :=
  ∀ (b : Block) (a : Bool) (d : Byte), b.phase = .heldM →
    b.pending = some { sta := false, sto := true, rd := false, wr := none, ack := false } →
    b.complete a d = .next { b with
      pending := none, irqFlag := true, rxack := none, phase := .idle, trace := b.trace ++ [.stop] }

/-- R161, and R133, which the spec marks as INFERRED (log 22): the completion of START+WRITE+STOP. It faults with E14
when the slave acknowledged a byte whose bit 0 is 1, keeping the symbols emitted before the STOP. -/
def Obligations.StartWriteStopCompletesOrFindsTheSlaveHoldingTheBus : Prop :=
  ∀ (b : Block) (byte : Byte) (a : Bool) (d : Byte),
    b.pending = some { sta := true, sto := true, rd := false, wr := some byte, ack := false } →
    (a = false ∧ byte.getLsbD 0 = true →
      b.complete a d = .fault (.slaveHoldsBus (.start :: sentBits byte ++ [.sack a]))) ∧
    (¬ (a = false ∧ byte.getLsbD 0 = true) →
      b.complete a d = .next { b with
        pending := none, irqFlag := true, rxack := some a, phase := .idle
        trace := b.trace ++ .start :: sentBits byte ++ [.sack a, .stop] })

/-- R158: at the end of every completion nothing is pending and IF is 1; TIP and, with `P_BIT6 = in_progress`, BUSY
read 0. The frame: a completion changes pending, phase, RxACK, RXR, IF and the trace at most. -/
def Obligations.CompletionClearsPendingAndSetsTheFlag : Prop :=
  ∀ (b t : Block) (a : Bool) (d : Byte), b.pending ≠ none → b.complete a d = .next t →
    t = { b with
      pending := none, irqFlag := true, phase := t.phase, rxack := t.rxack, rxr := t.rxr, trace := t.trace } ∧
    (∀ p : Config.Params, tipFlag p t = false) ∧
    (∀ (p : Config.Params) (x : Bool), p.bit6 = .inProgress → busyFlag p t x = false)

/-- R164: the number of symbols each command appends: 1 for a START, 9 for a byte with its acknowledge, 1 for a
STOP. -/
def Obligations.CompletionAppendsTheStatedNumberOfSymbols : Prop :=
  ∀ (b t : Block) (p : Command) (a : Bool) (d : Byte), b.pending = some p → p.Admitted → b.complete a d = .next t →
    ∃ l, t.trace = b.trace ++ l ∧
      l.length = (if p.sta then 1 else 0) + (if p.wr.isSome || p.rd then 9 else 0) + (if p.sto then 1 else 0)

/-- R161: a completion whose STOP part is reached in HELD_S faults after the parts before the STOP; that happens for
START+WRITE+STOP only, with a byte whose bit 0 is 1, acknowledged by the slave. The premise of the second part is the
invariant of InvariantIsKeptByEveryStep. -/
def Obligations.OnlyStartWriteStopFaultsAtCompletion : Prop :=
  (∀ (b : Block) (a : Bool) (d : Byte), b.Inv →
    (∀ r, b.complete a d ≠ .refused r) ∧
    ∀ f, b.complete a d = .fault f →
      ∃ byte, b.pending = some { sta := true, sto := true, rd := false, wr := some byte, ack := false } ∧
        byte.getLsbD 0 = true ∧ a = false ∧ f = .slaveHoldsBus (.start :: sentBits byte ++ [.sack false])) ∧
  ∀ (b : Block) (p : Command) (a : Bool) (d : Byte), b.pending = some p → p.sto = true →
    (b.beforeStop p a d).phase = .heldS →
    b.complete a d = .fault (.slaveHoldsBus ((b.beforeStop p a d).trace.drop b.trace.length))

/-- R241 and R161 together: the state kept by a completion's fault has the code and the symbols emitted; every other
field is as before the step. -/
def Obligations.CompletionFaultKeepsTheSymbolsEmitted : Prop :=
  ∀ (s : State) (byte : Byte) (d : Byte) (rest : List Turn), s.block.fault = none →
    s.turns = .complete false d :: rest → byte.getLsbD 0 = true →
    s.block.pending = some { sta := true, sto := true, rd := false, wr := some byte, ack := false } →
    stepKept s = s.withBlock { s.block with
      fault := some .slaveHoldsBus, trace := s.block.trace ++ .start :: sentBits byte ++ [.sack false] }

/-- R247: an IACK-only write before the completion leaves IF 1, after it leaves IF 0, for every pending command whose
completion does not fault. -/
def Obligations.IackAndCompletionTakeEffectInTheirOrder : Prop :=
  ∀ (s : State) (p : Command) (a : Bool) (d : Byte) (rest : List HostOp), s.block.fault = none →
    s.host.proc = none → s.host.program = .access 0x3001 :: rest → s.block.pending = some p →
    (∃ b, s.block.complete a d = .next b) →
    (s.turns = [.host, .complete a d] → ∃ t, runFor 2 s = .next t ∧ t.block.irqFlag = true) ∧
    (s.turns = [.complete a d, .host] → ∃ t, runFor 2 s = .next t ∧ t.block.irqFlag = false)

/-! ## Reset and whole-machine rules -/

/-- R41, R270: the values the spec decides for reset, and the flags derived from them. Nothing is said of the four
registers the spec leaves to a draw. -/
def Obligations.ResetLeavesTheDecidedValues : Prop :=
  let b := State.reset.block
  b.en = false ∧ b.pending = none ∧ b.phase = .idle ∧ b.rxack = none ∧ b.irqFlag = false ∧ b.loWritten = false ∧
    b.hiWritten = false ∧ b.configured = false ∧ b.settleUs = 0 ∧ b.fault = none ∧ b.trace = [] ∧
    tipFlag State.reset.params b = false ∧ (∀ x, busyFlag State.reset.params b x = false) ∧ alFlag = false

/-- The invariant of the block holds at reset. -/
def Obligations.InvariantHoldsAtReset : Prop := State.reset.block.Inv

/-- Every step from a state that meets the invariant of the block gives a state that meets it: the bus is held only by
an enabled, configured and settled block, a pending command passed every check, and the phase is the one the bus trace
leaves. -/
def Obligations.InvariantIsKeptByEveryStep : Prop :=
  ∀ s t : State, s.block.Inv → step s = .next t → t.block.Inv

/-- R24, R34: once the block is configured, no step changes the prescale value or clears `configured`. -/
def Obligations.PrescaleIsImmutableOnceConfigured : Prop :=
  ∀ s t : State, step s = .next t → s.block.configured = true →
    t.block.prescale = s.block.prescale ∧ t.block.configured = true

/-- R34: lo_written and hi_written are never cleared, and `configured` is set only when EN goes from 0 to 1 with
both set. -/
def Obligations.ConfigurationBitsAreNeverCleared : Prop :=
  ∀ s t : State, step s = .next t →
    (s.block.loWritten = true → t.block.loWritten = true) ∧ (s.block.hiWritten = true → t.block.hiWritten = true) ∧
    (s.block.configured = true → t.block.configured = true) ∧
    (s.block.configured = false → t.block.configured = true →
      s.block.en = false ∧ t.block.en = true ∧ s.block.loWritten = true ∧ s.block.hiWritten = true)

/-- R37: a step only appends to the trace, and only a completion step appends to it. -/
def Obligations.OnlyCompletionsAppendToTheTrace : Prop :=
  ∀ s t : State, step s = .next t →
    (∃ l, t.block.trace = s.block.trace ++ l) ∧
    ((∀ a d, s.turns.head? ≠ some (.complete a d)) → t.block.trace = s.block.trace)

/-- R27: only the completion of a READ command writes RXR, with the slave's byte. -/
def Obligations.OnlyReadCompletionsWriteRxr : Prop :=
  ∀ s t : State, step s = .next t → t.block.rxr ≠ s.block.rxr →
    ∃ a p, s.turns.head? = some (.complete a t.block.rxr) ∧ s.block.pending = some p ∧ p.rd = true

/-- R31: only a completion changes who holds the bus. -/
def Obligations.OnlyCompletionsChangeThePhase : Prop :=
  ∀ s t : State, step s = .next t → t.block.phase ≠ s.block.phase →
    ∃ a d p, s.turns.head? = some (.complete a d) ∧ s.block.pending = some p ∧ t.block.pending = none

/-! ## Status polling (43_status_polling.md) -/

/-- R180: what the host derives from a status byte, whatever the bits it does not use, and what that says of the block. -/
def Obligations.TransactionStatusIsDerivedFromTwoBits : Prop :=
  (∀ y : Byte, TransactionStatus.ofByte y = { inProgress := y.getLsbD 1, ackReceived := !y.getLsbD 7 }) ∧
  ∀ (p : Config.Params) (b : Block) (x : Byte),
    (TransactionStatus.ofByte (statusByte p b x)).inProgress = tipFlag p b ∧
    ∀ a, b.pending = none → b.rxack = some a → (TransactionStatus.ofByte (statusByte p b x)).ackReceived = !a

/-- R187: a step of the polling machine never stops, and changes nothing of the block but the settle count. -/
def Obligations.PollingNeverStopsAndKeepsTheBlock : Prop :=
  ∀ (s : State) (part : PollAt) (n : Nat) (k : AfterPoll) (callers : List Frame), s.block.fault = none →
    s.turns = [] ∨ s.turns.head? = some .host → s.host.proc = some { task := .poll part n k, callers := callers } →
    ∃ t, step s = .next t ∧ t.block = { s.block with settleUs := t.block.settleUs } ∧
      t.host.program = s.host.program

/-- R183, R181: with a command pending that TIP covers and no poll limit, a poll that reads the status `j` times before
the completion, which falls before a P_WAIT (`2 * j` host steps) or between a P_WAIT and its P_READ (`2 * j + 1`), returns
at the next read: the command has completed and, for a WRITE, the answer is the slave's acknowledge. -/
def Obligations.PollReturnsAfterTheCompletion : Prop :=
  ∀ (s : State) (p : Command) (a : Bool) (d : Byte) (n j m : Nat), s.block.fault = none →
    s.host.proc = some { task := .poll .wait n .answer, callers := [] } → s.block.pending = some p →
    s.params.pollLimit = none → (s.params.tipScope = .allCommands ∨ p.rd = true ∨ p.wr.isSome = true) →
    (∃ b, s.block.complete a d = .next b) → m = 2 * j ∨ m = 2 * j + 1 →
    s.turns = List.replicate m .host ++ [.complete a d] →
    ∃ t r, runFor (2 * j + 3) s = .next t ∧ t.block.pending = none ∧ t.host.proc = none ∧
      t.host.results = s.host.results ++ [.ack r] ∧ (p.wr.isSome = true → r = !a)

/-- R185, R163: with no poll limit, a poll on a command that never completes never returns: after any number of steps
the host is still in it and the command is still pending. -/
def Obligations.PollOnAnUnresponsiveSlaveHangs : Prop :=
  ∀ (s : State) (p : Command) (part : PollAt) (m : Nat) (k : AfterPoll) (callers : List Frame),
    s.block.fault = none → s.turns = [] → s.host.proc = some { task := .poll part m k, callers := callers } →
    s.block.pending = some p → s.params.pollLimit = none →
    (s.params.tipScope = .allCommands ∨ p.rd = true ∨ p.wr.isSome = true) →
    ∀ n, ∃ t part' m', runFor n s = .next t ∧ t.block.pending = some p ∧
      t.host.proc = some { task := .poll part' m' k, callers := callers } ∧ t.host.results = s.host.results

/-- R184: while a command is pending that TIP covers, the read of a poll that makes the count reach the poll limit ends
the poll, whoever called it, and the transaction with it: its result is `Timeout`, and the command is still pending. A
read below the limit, and every read with no limit, goes back to P_WAIT with the count one higher. That a `Timeout` also
ends the procedures of the EEPROM client (`callers`) is the model's log 19. -/
def Obligations.PollTimesOutAtItsLimit : Prop :=
  ∀ (s : State) (p : Command) (n : Nat) (k : AfterPoll) (callers : List Frame), s.block.fault = none →
    s.turns = [] ∨ s.turns.head? = some .host →
    s.host.proc = some { task := .poll .read n k, callers := callers } → s.block.pending = some p →
    (s.params.tipScope = .allCommands ∨ p.rd = true ∨ p.wr.isSome = true) →
    (∀ limit, s.params.pollLimit = some limit → limit ≤ n + 1 →
      ∃ t, step s = .next t ∧ t.block = s.block ∧ t.host.program = s.host.program ∧ t.host.proc = none ∧
        t.host.results = s.host.results ++ [.timeout]) ∧
    ((∀ limit, s.params.pollLimit = some limit → n + 1 < limit) →
      ∃ t, step s = .next t ∧ t.block = s.block ∧ t.host.program = s.host.program ∧
        t.host.proc = some { task := .poll .wait (n + 1) k, callers := callers } ∧ t.host.results = s.host.results)

/-! ## Transactions (44_transactions.md) -/

/-- R201: `configure` takes five host steps from any state in which it is legal, and leaves what the rule says. -/
def Obligations.ConfigureLeavesTheBlockReady : Prop :=
  ∀ (s : State) (v : BitVec 16) (rest : List HostOp), s.block.fault = none → s.block.pending = none →
    s.block.phase = .idle → s.block.configured = false → s.turns = [] → s.host.proc = none →
    s.host.program = .call (.configure v) :: rest →
    ∃ t, runFor 5 s = .next t ∧ t.block.prescale = v ∧
      t.block = { s.block with
        prerLo := v.extractLsb' 0 8, prerHi := v.extractLsb' 8 8, loWritten := true, hiWritten := true
        en := true, configured := true, settleUs := 100 } ∧
      t.host = { s.host with program := rest, results := s.host.results ++ [.unit] }

/-- R202: a second `configure` stops: E03 at its prescale write, E05 while the bus is held, E11 while a command is
pending. -/
def Obligations.SecondConfigureStops : Prop :=
  ∀ (s : State) (v : BitVec 16) (rest : List HostOp), s.block.fault = none → s.block.configured = true →
    s.turns = [] → s.host.proc = none → s.host.program = .call (.configure v) :: rest →
    (s.block.pending ≠ none → step s = .fault .accessDuringTransfer) ∧
    (s.block.pending = none → s.block.phase ≠ .idle → step s = .fault .disableWhileActive) ∧
    (s.block.pending = none → s.block.phase = .idle → runFor 2 s = .refused .reconfigure)

/-- R206, R208: a `write` of any payload, under the eager schedule and whatever the slave acknowledges, ends with the
result, the phase and the trace of the table of R208. -/
def Obligations.WriteTransactionFollowsItsTable : Prop :=
  ∀ (s : State) (addr : Byte) (data : List Byte) (sendStop : Bool) (ins : List Inputs) (last : Inputs)
    (rest : List HostOp), s.block.fault = none → s.block.Ready → s.block.phase ≠ .heldS → s.host.proc = none →
    data.length ≤ 254 → data.length ≤ s.params.bufCap.toNat → ins.length = data.length + 1 →
    s.host.program = .call (.write addr data sendStop) :: rest → s.turns = writeTurns sendStop last ins →
    ∃ t, runFor (writeTurns sendStop last ins).length s = .next t ∧
      t.host.program = rest ∧ t.host.proc = none ∧ t.host.results = s.host.results ++ [writeResult 0 ins] ∧
      t.block.pending = none ∧ t.block.irqFlag = true ∧
      t.block.phase = (if writeStops sendStop ins then .idle else .heldM) ∧
      t.block.trace = s.block.trace ++ .start :: writeTrace sendStop (busByte addr false :: data) ins

/-- R203, R204: a `read` of `count >= 1` bytes, under the eager schedule, returns exactly the slave's bytes with the
final command folded, or `NoAck` when the address is not acknowledged; it ends with the bus free and the trace of R204. -/
def Obligations.ReadTransactionReturnsTheBytesOrNoAck : Prop :=
  ∀ (s : State) (addr count : Byte) (x : Inputs) (ins : List Inputs) (last : Inputs) (rest : List HostOp),
    s.block.fault = none → s.block.Ready → s.block.phase ≠ .heldS → s.host.proc = none →
    ins.length = count.toNat → count ≠ 0 → s.host.program = .call (.read addr count) :: rest →
    (x.1 = false → s.turns = sendTurns x ++ readTurns ins →
      ∃ t, runFor (5 + 5 * ins.length) s = .next t ∧ t.host.program = rest ∧ t.host.proc = none ∧
        t.host.results = s.host.results ++ [.bytes (ins.map (·.2))] ∧ t.block.pending = none ∧
        t.block.phase = .idle ∧
        t.block.trace = s.block.trace ++ .start :: sentBits (busByte addr true) ++ .sack false :: readTrace ins) ∧
    (x.1 = true → s.turns = sendTurns x ++ stopTurns last →
      ∃ t, runFor 9 s = .next t ∧ t.host.program = rest ∧ t.host.proc = none ∧
        t.host.results = s.host.results ++ [.noAck] ∧ t.block.pending = none ∧ t.block.phase = .idle ∧
        t.block.rxr = s.block.rxr ∧
        t.block.trace = s.block.trace ++ .start :: sentBits (busByte addr true) ++ [.sack true, .stop])

/-- R205, R282: `read` with count 0 and an acknowledged address returns no bytes and leaves the slave driving. -/
def Obligations.ReadOfNoBytesLeavesTheSlaveDriving : Prop :=
  ∀ (s : State) (addr : Byte) (x : Inputs) (rest : List HostOp), s.block.fault = none → s.block.Ready →
    s.block.phase ≠ .heldS → s.host.proc = none → s.host.program = .call (.read addr 0) :: rest → x.1 = false →
    s.turns = sendTurns x →
    ∃ t, runFor 5 s = .next t ∧ t.host.proc = none ∧ t.host.results = s.host.results ++ [.bytes []] ∧
      t.block.phase = .heldS ∧ t.block.pending = none

/-- R205: a `write` with more than 254 payload bytes, or more than BUF_CAP, is refused before any access. -/
def Obligations.OversizedWriteIsRefusedBeforeAnyAccess : Prop :=
  ∀ (s : State) (addr : Byte) (data : List Byte) (sendStop : Bool) (rest : List HostOp), s.block.fault = none →
    s.host.proc = none → s.turns = [] → s.host.program = .call (.write addr data sendStop) :: rest →
    254 < data.length ∨ s.params.bufCap.toNat < data.length →
    step s = .refused .payloadTooLong ∧ stepKept s = s

/-! ## EEPROM client (45_eeprom_client.md) -/

/-- R220: `read_region` is `write` of the offset without STOP, then `read` if the write phase returned `Written(2)`, else
`NoAck`; R222: `write_region` is `write` of the offset and the payload, with STOP. That a `Timeout` of the write phase goes
up as it is, is the model's choice (log 19). -/
def Obligations.RegionAccessesComposeWriteAndRead : Prop :=
  ∀ (p : Config.Params) (slave off count : Byte) (payload : List Byte) (callers : List Frame),
    Call.begin p (.writeRegion slave off payload) = Call.begin p (.write slave (off :: payload) true) ∧
    (∀ q, Call.begin p (.readRegion slave off count) = .ok q →
      Call.begin p (.write slave [off] false) = .ok { task := q.task, callers := [] } ∧
        q.callers = [.regionRead slave count]) ∧
    returnTo (.written 2) (.regionRead slave count :: callers) =
      .running { task := .readSend slave count, callers := callers } ∧
    (∀ r, r ≠ .written 2 → r ≠ .timeout →
      returnTo r (.regionRead slave count :: callers) = returnTo .noAck callers) ∧
    returnTo .timeout (.regionRead slave count :: callers) = returnTo .timeout callers

/-- R223, R224: the PROM value is stored most significant byte first, all four bytes, and read back as it was; the unique
ID is
`(buf[4] << 8) | buf[5]`. -/
def Obligations.ClientValuesAreAssembledFromTheirBytes : Prop :=
  (∀ v : BitVec 32,
    (bigEndianBytes v).length = 4 ∧
    (∀ k, k < 8 → ((bigEndianBytes v).getD 0 0).getLsbD k = v.getLsbD (24 + k)) ∧
    (∀ k, k < 8 → ((bigEndianBytes v).getD 1 0).getLsbD k = v.getLsbD (16 + k)) ∧
    (∀ k, k < 8 → ((bigEndianBytes v).getD 2 0).getLsbD k = v.getLsbD (8 + k)) ∧
    (∀ k, k < 8 → ((bigEndianBytes v).getD 3 0).getLsbD k = v.getLsbD k) ∧
    promOfBytes (bigEndianBytes v) = .promValue v) ∧
  ∀ b0 b1 b2 b3 b4 b5 : Byte,
    uniqueIdOfBytes [b0, b1, b2, b3, b4, b5] = .uniqueId ((b4.setWidth 16 <<< 8) ||| b5.setWidth 16)
end

