-- ==== Sys2Proof/Laws/Decode.lean ====
section
/-! SUPPORT. The fields of packed bytes and access words. -/

namespace Sys2Proof

theorem byteOfBits_bit7 (b7 b6 b5 b4 b3 b2 b1 b0 : Bool) : (byteOfBits b7 b6 b5 b4 b3 b2 b1 b0).getLsbD 7 = b7 := by
  revert b7 b6 b5 b4 b3 b2 b1 b0; decide
theorem byteOfBits_bit6 (b7 b6 b5 b4 b3 b2 b1 b0 : Bool) : (byteOfBits b7 b6 b5 b4 b3 b2 b1 b0).getLsbD 6 = b6 := by
  revert b7 b6 b5 b4 b3 b2 b1 b0; decide
theorem byteOfBits_bit5 (b7 b6 b5 b4 b3 b2 b1 b0 : Bool) : (byteOfBits b7 b6 b5 b4 b3 b2 b1 b0).getLsbD 5 = b5 := by
  revert b7 b6 b5 b4 b3 b2 b1 b0; decide
theorem byteOfBits_bit4 (b7 b6 b5 b4 b3 b2 b1 b0 : Bool) : (byteOfBits b7 b6 b5 b4 b3 b2 b1 b0).getLsbD 4 = b4 := by
  revert b7 b6 b5 b4 b3 b2 b1 b0; decide
theorem byteOfBits_bit3 (b7 b6 b5 b4 b3 b2 b1 b0 : Bool) : (byteOfBits b7 b6 b5 b4 b3 b2 b1 b0).getLsbD 3 = b3 := by
  revert b7 b6 b5 b4 b3 b2 b1 b0; decide
theorem byteOfBits_bit2 (b7 b6 b5 b4 b3 b2 b1 b0 : Bool) : (byteOfBits b7 b6 b5 b4 b3 b2 b1 b0).getLsbD 2 = b2 := by
  revert b7 b6 b5 b4 b3 b2 b1 b0; decide
theorem byteOfBits_bit1 (b7 b6 b5 b4 b3 b2 b1 b0 : Bool) : (byteOfBits b7 b6 b5 b4 b3 b2 b1 b0).getLsbD 1 = b1 := by
  revert b7 b6 b5 b4 b3 b2 b1 b0; decide
theorem byteOfBits_bit0 (b7 b6 b5 b4 b3 b2 b1 b0 : Bool) : (byteOfBits b7 b6 b5 b4 b3 b2 b1 b0).getLsbD 0 = b0 := by
  revert b7 b6 b5 b4 b3 b2 b1 b0; decide

@[simp] theorem wordIsWrite_accessWord (w : Bool) (off : Offset) (d : Byte) : wordIsWrite (accessWord w off d) = w := by
  simp only [wordIsWrite, accessWord, BitVec.getLsbD_append, BitVec.getLsbD_ofBool]
  simp

@[simp] theorem wordOffset_accessWord (w : Bool) (off : Offset) (d : Byte) : wordOffset (accessWord w off d) = off := by
  apply BitVec.eq_of_getLsbD_eq
  intro i hi
  simp only [wordOffset, accessWord, BitVec.getLsbD_append, BitVec.getLsbD_extractLsb', hi]
  simp [show 8 + i - 8 = i by omega, hi]

@[simp] theorem wordData_accessWord (w : Bool) (off : Offset) (d : Byte) : wordData (accessWord w off d) = d := by
  apply BitVec.eq_of_getLsbD_eq
  intro i hi
  simp only [wordData, accessWord, BitVec.getLsbD_append, BitVec.getLsbD_extractLsb', hi]
  simp [hi]

/-- An access word is its three fields. -/
theorem accessWord_fields (w : AccessWord) : accessWord (wordIsWrite w) (wordOffset w) (wordData w) = w := by
  apply BitVec.eq_of_getLsbD_eq
  intro i hi
  simp only [accessWord, wordIsWrite, wordOffset, wordData, BitVec.getLsbD_append, BitVec.getLsbD_ofBool,
    BitVec.getLsbD_extractLsb']
  by_cases h8 : i < 8
  · simp [h8]
  · by_cases h13 : i < 13
    · simp [h8, show i - 8 < 5 by omega, show 8 + (i - 8) = i by omega]
    · simp [show i = 13 by omega]

/-- Decoding an access word built from its fields. -/
theorem decodeAccess_write (off : Offset) (d : Byte) :
    decodeAccess (accessWord true off d) = .ok (decodeWrite off.toNat d) := by
  simp [decodeAccess]

theorem decodeAccess_read (off : Offset) : decodeAccess (accessWord false off 0) = .ok (decodeRead off.toNat) := by
  simp [decodeAccess]

theorem decodeWord_toNat (w : AccessWord) : decodeWord w.toNat = decodeAccess w := by
  have h := w.isLt
  simp [decodeWord, h]

end Sys2Proof
end

