-- ==== Sys2Proof/Laws/State.lean ====
section
/-! SUPPORT. One lemma per field per update of the block and of the machine, true by rfl. -/

namespace Sys2Proof.Machine

/-! `Block.enable` -/

@[simp] theorem Block.enable_prerLo (b : Block) : b.enable.prerLo = b.prerLo := rfl
@[simp] theorem Block.enable_prerHi (b : Block) : b.enable.prerHi = b.prerHi := rfl
@[simp] theorem Block.enable_en (b : Block) : b.enable.en = true := rfl
@[simp] theorem Block.enable_txr (b : Block) : b.enable.txr = b.txr := rfl
@[simp] theorem Block.enable_rxr (b : Block) : b.enable.rxr = b.rxr := rfl
@[simp] theorem Block.enable_pending (b : Block) : b.enable.pending = b.pending := rfl
@[simp] theorem Block.enable_phase (b : Block) : b.enable.phase = b.phase := rfl
@[simp] theorem Block.enable_rxack (b : Block) : b.enable.rxack = b.rxack := rfl
@[simp] theorem Block.enable_irqFlag (b : Block) : b.enable.irqFlag = b.irqFlag := rfl
@[simp] theorem Block.enable_loWritten (b : Block) : b.enable.loWritten = b.loWritten := rfl
@[simp] theorem Block.enable_hiWritten (b : Block) : b.enable.hiWritten = b.hiWritten := rfl
@[simp] theorem Block.enable_configured (b : Block) : b.enable.configured = (b.configured || (b.loWritten && b.hiWritten)) := rfl
@[simp] theorem Block.enable_settleUs (b : Block) : b.enable.settleUs = 0 := rfl
@[simp] theorem Block.enable_fault (b : Block) : b.enable.fault = b.fault := rfl
@[simp] theorem Block.enable_trace (b : Block) : b.enable.trace = b.trace := rfl

/-! `Block.disable` -/

@[simp] theorem Block.disable_prerLo (b : Block) : b.disable.prerLo = b.prerLo := rfl
@[simp] theorem Block.disable_prerHi (b : Block) : b.disable.prerHi = b.prerHi := rfl
@[simp] theorem Block.disable_en (b : Block) : b.disable.en = false := rfl
@[simp] theorem Block.disable_txr (b : Block) : b.disable.txr = b.txr := rfl
@[simp] theorem Block.disable_rxr (b : Block) : b.disable.rxr = b.rxr := rfl
@[simp] theorem Block.disable_pending (b : Block) : b.disable.pending = b.pending := rfl
@[simp] theorem Block.disable_phase (b : Block) : b.disable.phase = b.phase := rfl
@[simp] theorem Block.disable_rxack (b : Block) : b.disable.rxack = b.rxack := rfl
@[simp] theorem Block.disable_irqFlag (b : Block) : b.disable.irqFlag = b.irqFlag := rfl
@[simp] theorem Block.disable_loWritten (b : Block) : b.disable.loWritten = b.loWritten := rfl
@[simp] theorem Block.disable_hiWritten (b : Block) : b.disable.hiWritten = b.hiWritten := rfl
@[simp] theorem Block.disable_configured (b : Block) : b.disable.configured = b.configured := rfl
@[simp] theorem Block.disable_settleUs (b : Block) : b.disable.settleUs = 0 := rfl
@[simp] theorem Block.disable_fault (b : Block) : b.disable.fault = b.fault := rfl
@[simp] theorem Block.disable_trace (b : Block) : b.disable.trace = b.trace := rfl

/-! `Block.clearIrq` -/

@[simp] theorem Block.clearIrq_prerLo (b : Block) : b.clearIrq.prerLo = b.prerLo := rfl
@[simp] theorem Block.clearIrq_prerHi (b : Block) : b.clearIrq.prerHi = b.prerHi := rfl
@[simp] theorem Block.clearIrq_en (b : Block) : b.clearIrq.en = b.en := rfl
@[simp] theorem Block.clearIrq_txr (b : Block) : b.clearIrq.txr = b.txr := rfl
@[simp] theorem Block.clearIrq_rxr (b : Block) : b.clearIrq.rxr = b.rxr := rfl
@[simp] theorem Block.clearIrq_pending (b : Block) : b.clearIrq.pending = b.pending := rfl
@[simp] theorem Block.clearIrq_phase (b : Block) : b.clearIrq.phase = b.phase := rfl
@[simp] theorem Block.clearIrq_rxack (b : Block) : b.clearIrq.rxack = b.rxack := rfl
@[simp] theorem Block.clearIrq_irqFlag (b : Block) : b.clearIrq.irqFlag = false := rfl
@[simp] theorem Block.clearIrq_loWritten (b : Block) : b.clearIrq.loWritten = b.loWritten := rfl
@[simp] theorem Block.clearIrq_hiWritten (b : Block) : b.clearIrq.hiWritten = b.hiWritten := rfl
@[simp] theorem Block.clearIrq_configured (b : Block) : b.clearIrq.configured = b.configured := rfl
@[simp] theorem Block.clearIrq_settleUs (b : Block) : b.clearIrq.settleUs = b.settleUs := rfl
@[simp] theorem Block.clearIrq_fault (b : Block) : b.clearIrq.fault = b.fault := rfl
@[simp] theorem Block.clearIrq_trace (b : Block) : b.clearIrq.trace = b.trace := rfl

/-! `Block.emit` -/

@[simp] theorem Block.emit_prerLo (b : Block) (l : List Symbol) : (b.emit l).prerLo = b.prerLo := rfl
@[simp] theorem Block.emit_prerHi (b : Block) (l : List Symbol) : (b.emit l).prerHi = b.prerHi := rfl
@[simp] theorem Block.emit_en (b : Block) (l : List Symbol) : (b.emit l).en = b.en := rfl
@[simp] theorem Block.emit_txr (b : Block) (l : List Symbol) : (b.emit l).txr = b.txr := rfl
@[simp] theorem Block.emit_rxr (b : Block) (l : List Symbol) : (b.emit l).rxr = b.rxr := rfl
@[simp] theorem Block.emit_pending (b : Block) (l : List Symbol) : (b.emit l).pending = b.pending := rfl
@[simp] theorem Block.emit_phase (b : Block) (l : List Symbol) : (b.emit l).phase = b.phase := rfl
@[simp] theorem Block.emit_rxack (b : Block) (l : List Symbol) : (b.emit l).rxack = b.rxack := rfl
@[simp] theorem Block.emit_irqFlag (b : Block) (l : List Symbol) : (b.emit l).irqFlag = b.irqFlag := rfl
@[simp] theorem Block.emit_loWritten (b : Block) (l : List Symbol) : (b.emit l).loWritten = b.loWritten := rfl
@[simp] theorem Block.emit_hiWritten (b : Block) (l : List Symbol) : (b.emit l).hiWritten = b.hiWritten := rfl
@[simp] theorem Block.emit_configured (b : Block) (l : List Symbol) : (b.emit l).configured = b.configured := rfl
@[simp] theorem Block.emit_settleUs (b : Block) (l : List Symbol) : (b.emit l).settleUs = b.settleUs := rfl
@[simp] theorem Block.emit_fault (b : Block) (l : List Symbol) : (b.emit l).fault = b.fault := rfl
@[simp] theorem Block.emit_trace (b : Block) (l : List Symbol) : (b.emit l).trace = b.trace ++ l := rfl

/-! `Block.delay` -/

@[simp] theorem Block.delay_prerLo (b : Block) (t : Nat) : (b.delay t).prerLo = b.prerLo := rfl
@[simp] theorem Block.delay_prerHi (b : Block) (t : Nat) : (b.delay t).prerHi = b.prerHi := rfl
@[simp] theorem Block.delay_en (b : Block) (t : Nat) : (b.delay t).en = b.en := rfl
@[simp] theorem Block.delay_txr (b : Block) (t : Nat) : (b.delay t).txr = b.txr := rfl
@[simp] theorem Block.delay_rxr (b : Block) (t : Nat) : (b.delay t).rxr = b.rxr := rfl
@[simp] theorem Block.delay_pending (b : Block) (t : Nat) : (b.delay t).pending = b.pending := rfl
@[simp] theorem Block.delay_phase (b : Block) (t : Nat) : (b.delay t).phase = b.phase := rfl
@[simp] theorem Block.delay_rxack (b : Block) (t : Nat) : (b.delay t).rxack = b.rxack := rfl
@[simp] theorem Block.delay_irqFlag (b : Block) (t : Nat) : (b.delay t).irqFlag = b.irqFlag := rfl
@[simp] theorem Block.delay_loWritten (b : Block) (t : Nat) : (b.delay t).loWritten = b.loWritten := rfl
@[simp] theorem Block.delay_hiWritten (b : Block) (t : Nat) : (b.delay t).hiWritten = b.hiWritten := rfl
@[simp] theorem Block.delay_configured (b : Block) (t : Nat) : (b.delay t).configured = b.configured := rfl
@[simp] theorem Block.delay_settleUs (b : Block) (t : Nat) : (b.delay t).settleUs = if b.en then b.settleUs + t else b.settleUs := rfl
@[simp] theorem Block.delay_fault (b : Block) (t : Nat) : (b.delay t).fault = b.fault := rfl
@[simp] theorem Block.delay_trace (b : Block) (t : Nat) : (b.delay t).trace = b.trace := rfl

/-! `Block.accept` -/

@[simp] theorem Block.accept_prerLo (b : Block) (c : CommandBits) (i : Bool) : (b.accept c i).prerLo = b.prerLo := rfl
@[simp] theorem Block.accept_prerHi (b : Block) (c : CommandBits) (i : Bool) : (b.accept c i).prerHi = b.prerHi := rfl
@[simp] theorem Block.accept_en (b : Block) (c : CommandBits) (i : Bool) : (b.accept c i).en = b.en := rfl
@[simp] theorem Block.accept_txr (b : Block) (c : CommandBits) (i : Bool) : (b.accept c i).txr = b.txr := rfl
@[simp] theorem Block.accept_rxr (b : Block) (c : CommandBits) (i : Bool) : (b.accept c i).rxr = b.rxr := rfl
@[simp] theorem Block.accept_pending (b : Block) (c : CommandBits) (i : Bool) : (b.accept c i).pending = some { sta := c.sta, sto := c.sto, rd := c.rd, wr := if c.wr then some b.txr else none, ack := c.ack } := rfl
@[simp] theorem Block.accept_phase (b : Block) (c : CommandBits) (i : Bool) : (b.accept c i).phase = b.phase := rfl
@[simp] theorem Block.accept_rxack (b : Block) (c : CommandBits) (i : Bool) : (b.accept c i).rxack = b.rxack := rfl
@[simp] theorem Block.accept_irqFlag (b : Block) (c : CommandBits) (i : Bool) : (b.accept c i).irqFlag = (b.irqFlag && !i) := rfl
@[simp] theorem Block.accept_loWritten (b : Block) (c : CommandBits) (i : Bool) : (b.accept c i).loWritten = b.loWritten := rfl
@[simp] theorem Block.accept_hiWritten (b : Block) (c : CommandBits) (i : Bool) : (b.accept c i).hiWritten = b.hiWritten := rfl
@[simp] theorem Block.accept_configured (b : Block) (c : CommandBits) (i : Bool) : (b.accept c i).configured = b.configured := rfl
@[simp] theorem Block.accept_settleUs (b : Block) (c : CommandBits) (i : Bool) : (b.accept c i).settleUs = b.settleUs := rfl
@[simp] theorem Block.accept_fault (b : Block) (c : CommandBits) (i : Bool) : (b.accept c i).fault = b.fault := rfl
@[simp] theorem Block.accept_trace (b : Block) (c : CommandBits) (i : Bool) : (b.accept c i).trace = b.trace := rfl

/-! `Block.stopPart` -/

@[simp] theorem Block.stopPart_prerLo (b : Block) : b.stopPart.prerLo = b.prerLo := rfl
@[simp] theorem Block.stopPart_prerHi (b : Block) : b.stopPart.prerHi = b.prerHi := rfl
@[simp] theorem Block.stopPart_en (b : Block) : b.stopPart.en = b.en := rfl
@[simp] theorem Block.stopPart_txr (b : Block) : b.stopPart.txr = b.txr := rfl
@[simp] theorem Block.stopPart_rxr (b : Block) : b.stopPart.rxr = b.rxr := rfl
@[simp] theorem Block.stopPart_pending (b : Block) : b.stopPart.pending = b.pending := rfl
@[simp] theorem Block.stopPart_phase (b : Block) : b.stopPart.phase = .idle := rfl
@[simp] theorem Block.stopPart_rxack (b : Block) : b.stopPart.rxack = b.rxack := rfl
@[simp] theorem Block.stopPart_irqFlag (b : Block) : b.stopPart.irqFlag = b.irqFlag := rfl
@[simp] theorem Block.stopPart_loWritten (b : Block) : b.stopPart.loWritten = b.loWritten := rfl
@[simp] theorem Block.stopPart_hiWritten (b : Block) : b.stopPart.hiWritten = b.hiWritten := rfl
@[simp] theorem Block.stopPart_configured (b : Block) : b.stopPart.configured = b.configured := rfl
@[simp] theorem Block.stopPart_settleUs (b : Block) : b.stopPart.settleUs = b.settleUs := rfl
@[simp] theorem Block.stopPart_fault (b : Block) : b.stopPart.fault = b.fault := rfl
@[simp] theorem Block.stopPart_trace (b : Block) : b.stopPart.trace = b.trace ++ [.stop] := rfl

/-! `Block.finish` -/

@[simp] theorem Block.finish_prerLo (b : Block) : b.finish.prerLo = b.prerLo := rfl
@[simp] theorem Block.finish_prerHi (b : Block) : b.finish.prerHi = b.prerHi := rfl
@[simp] theorem Block.finish_en (b : Block) : b.finish.en = b.en := rfl
@[simp] theorem Block.finish_txr (b : Block) : b.finish.txr = b.txr := rfl
@[simp] theorem Block.finish_rxr (b : Block) : b.finish.rxr = b.rxr := rfl
@[simp] theorem Block.finish_pending (b : Block) : b.finish.pending = none := rfl
@[simp] theorem Block.finish_phase (b : Block) : b.finish.phase = b.phase := rfl
@[simp] theorem Block.finish_rxack (b : Block) : b.finish.rxack = b.rxack := rfl
@[simp] theorem Block.finish_irqFlag (b : Block) : b.finish.irqFlag = true := rfl
@[simp] theorem Block.finish_loWritten (b : Block) : b.finish.loWritten = b.loWritten := rfl
@[simp] theorem Block.finish_hiWritten (b : Block) : b.finish.hiWritten = b.hiWritten := rfl
@[simp] theorem Block.finish_configured (b : Block) : b.finish.configured = b.configured := rfl
@[simp] theorem Block.finish_settleUs (b : Block) : b.finish.settleUs = b.settleUs := rfl
@[simp] theorem Block.finish_fault (b : Block) : b.finish.fault = b.fault := rfl
@[simp] theorem Block.finish_trace (b : Block) : b.finish.trace = b.trace := rfl

/-! `Block.stopWith` -/

@[simp] theorem Block.stopWith_prerLo (b : Block) (f : Fault) : (b.stopWith f).prerLo = b.prerLo := rfl
@[simp] theorem Block.stopWith_prerHi (b : Block) (f : Fault) : (b.stopWith f).prerHi = b.prerHi := rfl
@[simp] theorem Block.stopWith_en (b : Block) (f : Fault) : (b.stopWith f).en = b.en := rfl
@[simp] theorem Block.stopWith_txr (b : Block) (f : Fault) : (b.stopWith f).txr = b.txr := rfl
@[simp] theorem Block.stopWith_rxr (b : Block) (f : Fault) : (b.stopWith f).rxr = b.rxr := rfl
@[simp] theorem Block.stopWith_pending (b : Block) (f : Fault) : (b.stopWith f).pending = b.pending := rfl
@[simp] theorem Block.stopWith_phase (b : Block) (f : Fault) : (b.stopWith f).phase = b.phase := rfl
@[simp] theorem Block.stopWith_rxack (b : Block) (f : Fault) : (b.stopWith f).rxack = b.rxack := rfl
@[simp] theorem Block.stopWith_irqFlag (b : Block) (f : Fault) : (b.stopWith f).irqFlag = b.irqFlag := rfl
@[simp] theorem Block.stopWith_loWritten (b : Block) (f : Fault) : (b.stopWith f).loWritten = b.loWritten := rfl
@[simp] theorem Block.stopWith_hiWritten (b : Block) (f : Fault) : (b.stopWith f).hiWritten = b.hiWritten := rfl
@[simp] theorem Block.stopWith_configured (b : Block) (f : Fault) : (b.stopWith f).configured = b.configured := rfl
@[simp] theorem Block.stopWith_settleUs (b : Block) (f : Fault) : (b.stopWith f).settleUs = b.settleUs := rfl
@[simp] theorem Block.stopWith_fault (b : Block) (f : Fault) : (b.stopWith f).fault = some f.code := rfl
@[simp] theorem Block.stopWith_trace (b : Block) (f : Fault) : (b.stopWith f).trace = b.trace ++ f.emitted := rfl

/-! `State.withBlock` -/

@[simp] theorem State.withBlock_params (s : State) (b : Block) : (s.withBlock b).params = s.params := rfl
@[simp] theorem State.withBlock_block (s : State) (b : Block) : (s.withBlock b).block = b := rfl
@[simp] theorem State.withBlock_host (s : State) (b : Block) : (s.withBlock b).host = s.host := rfl
@[simp] theorem State.withBlock_turns (s : State) (b : Block) : (s.withBlock b).turns = s.turns := rfl
@[simp] theorem State.withBlock_draws (s : State) (b : Block) : (s.withBlock b).draws = s.draws := rfl

/-! `State.withProgram` -/

@[simp] theorem State.withProgram_params (s : State) (l : List HostOp) : (s.withProgram l).params = s.params := rfl
@[simp] theorem State.withProgram_block (s : State) (l : List HostOp) : (s.withProgram l).block = s.block := rfl
@[simp] theorem State.withProgram_host (s : State) (l : List HostOp) : (s.withProgram l).host = { s.host with program := l } := rfl
@[simp] theorem State.withProgram_turns (s : State) (l : List HostOp) : (s.withProgram l).turns = s.turns := rfl
@[simp] theorem State.withProgram_draws (s : State) (l : List HostOp) : (s.withProgram l).draws = s.draws := rfl

/-! `State.withTurns` -/

@[simp] theorem State.withTurns_params (s : State) (l : List Turn) : (s.withTurns l).params = s.params := rfl
@[simp] theorem State.withTurns_block (s : State) (l : List Turn) : (s.withTurns l).block = s.block := rfl
@[simp] theorem State.withTurns_host (s : State) (l : List Turn) : (s.withTurns l).host = s.host := rfl
@[simp] theorem State.withTurns_turns (s : State) (l : List Turn) : (s.withTurns l).turns = l := rfl
@[simp] theorem State.withTurns_draws (s : State) (l : List Turn) : (s.withTurns l).draws = s.draws := rfl

/-! `State.answer` -/

@[simp] theorem State.answer_params (s : State) (x : Byte) : (s.answer x).params = s.params := rfl
@[simp] theorem State.answer_block (s : State) (x : Byte) : (s.answer x).block = s.block := rfl
@[simp] theorem State.answer_host (s : State) (x : Byte) : (s.answer x).host = { s.host with rdata := x } := rfl
@[simp] theorem State.answer_turns (s : State) (x : Byte) : (s.answer x).turns = s.turns := rfl
@[simp] theorem State.answer_draws (s : State) (x : Byte) : (s.answer x).draws = s.draws := rfl

/-! `State.answerDrawn` -/

@[simp] theorem State.answerDrawn_params (s : State) (x : Byte) : (s.answerDrawn x).params = s.params := rfl
@[simp] theorem State.answerDrawn_block (s : State) (x : Byte) : (s.answerDrawn x).block = s.block := rfl
@[simp] theorem State.answerDrawn_host (s : State) (x : Byte) : (s.answerDrawn x).host = { s.host with rdata := x } := rfl
@[simp] theorem State.answerDrawn_turns (s : State) (x : Byte) : (s.answerDrawn x).turns = s.turns := rfl
@[simp] theorem State.answerDrawn_draws (s : State) (x : Byte) : (s.answerDrawn x).draws = s.draws + 1 := rfl

/-! `State.delay` -/

@[simp] theorem State.delay_params (s : State) (t : Nat) : (s.delay t).params = s.params := rfl
@[simp] theorem State.delay_block (s : State) (t : Nat) : (s.delay t).block = s.block.delay t := rfl
@[simp] theorem State.delay_host (s : State) (t : Nat) : (s.delay t).host = s.host := rfl
@[simp] theorem State.delay_turns (s : State) (t : Nat) : (s.delay t).turns = s.turns := rfl
@[simp] theorem State.delay_draws (s : State) (t : Nat) : (s.delay t).draws = s.draws := rfl

/-! `State.fetching` -/

@[simp] theorem State.fetching_params (s : State) (w : Nat) : (s.fetching w).params = s.params := rfl
@[simp] theorem State.fetching_block (s : State) (w : Nat) : (s.fetching w).block = s.block := rfl
@[simp] theorem State.fetching_host (s : State) (w : Nat) : (s.fetching w).host = { s.host with program := .access w :: s.host.program, proc := none } := rfl
@[simp] theorem State.fetching_turns (s : State) (w : Nat) : (s.fetching w).turns = .host :: s.turns := rfl
@[simp] theorem State.fetching_draws (s : State) (w : Nat) : (s.fetching w).draws = s.draws := rfl

/-! Updates that meet -/

@[simp] theorem State.withBlock_self (s : State) : s.withBlock s.block = s := rfl
@[simp] theorem State.withBlock_withBlock (s : State) (b c : Block) : (s.withBlock b).withBlock c = s.withBlock c := rfl
@[simp] theorem Block.emit_emit (b : Block) (l m : List Symbol) : (b.emit l).emit m = b.emit (l ++ m) := by
  simp [Block.emit]

end Sys2Proof.Machine
end

