-- ==== Sys2Proof/Laws/Ops.lean ====
section
/-! SUPPORT. One lemma per shared operation: everything it can do when it answers a next state. -/

namespace Sys2Proof.Machine

theorem Block.checkPrescale_next {b t : Block} {k : BlockOut} :
    b.checkPrescale k = .next t ↔ b.en = false ∧ b.configured = false ∧ k = .next t := by
  unfold Block.checkPrescale
  cases b.en <;> cases b.configured <;> simp

theorem Block.checkNotPending_next {b t : Block} {k : BlockOut} :
    b.checkNotPending k = .next t ↔ b.pending = none ∧ k = .next t := by
  unfold Block.checkNotPending
  cases b.pending <;> simp

theorem CommandBits.checkStatic_next {c : CommandBits} {t : Block} {k : BlockOut} :
    c.checkStatic k = .next t ↔
      (c.rd && c.wr || c.sta && c.rd || c.sta && !c.wr || c.ack && !c.rd) = false ∧
        (c.rd = true → c.ack = c.sto) ∧ k = .next t := by
  obtain ⟨sta, sto, rd, wr, ack⟩ := c
  cases sta <;> cases sto <;> cases rd <;> cases wr <;> cases ack <;> simp [CommandBits.checkStatic]

theorem Block.checkReady_next {b t : Block} {k : BlockOut} :
    b.checkReady k = .next t ↔
      b.pending = none ∧ b.en = true ∧ b.configured = true ∧ Config.tSettleUs ≤ b.settleUs ∧ k = .next t := by
  unfold Block.checkReady
  rw [Block.checkNotPending_next]
  by_cases h : b.settleUs < Config.tSettleUs
  · cases b.en <;> cases b.configured <;> simp [h, Nat.not_le.mpr h]
  · cases b.en <;> cases b.configured <;> simp [h, Nat.not_lt.mp h]

theorem Block.checkPhase_next {b t : Block} {c : CommandBits} {k : BlockOut} :
    b.checkPhase c k = .next t ↔
      b.phase.Allows c ∧ k = .next t := by
  unfold Block.checkPhase Phase.Allows
  cases b.phase <;> cases c.sta <;> cases c.rd <;> simp

theorem Block.transfer_next {c : CommandBits} {i : Bool} {b t : Block} :
    b.transfer c i = .next t ↔
      ((c.rd && c.wr || c.sta && c.rd || c.sta && !c.wr || c.ack && !c.rd) = false ∧ (c.rd = true → c.ack = c.sto)) ∧
        (b.pending = none ∧ b.en = true ∧ b.configured = true ∧ Config.tSettleUs ≤ b.settleUs) ∧
          b.phase.Allows c ∧
            t = b.accept c i := by
  unfold Block.transfer
  rw [CommandBits.checkStatic_next, Block.checkReady_next, Block.checkPhase_next, Host.Outcome.next.injEq,
    @eq_comm _ (b.accept c i) t]
  exact ⟨fun ⟨h1, h2, h3, h4, h5, h6, h7, h8⟩ => ⟨⟨h1, h2⟩, ⟨h3, h4, h5, h6⟩, h7, h8⟩,
    fun ⟨⟨h1, h2⟩, ⟨h3, h4, h5, h6⟩, h7, h8⟩ => ⟨h1, h2, h3, h4, h5, h6, h7, h8⟩⟩

theorem Block.writeControl_disable (b : Block) :
    b.writeControl 0x00 =
      b.checkNotPending (if b.phase ≠ .idle then .fault .disableWhileActive else .next b.disable) := by
  cases h : b.phase <;> simp [Block.writeControl, h]

theorem Block.writeControl_enable (b : Block) :
    b.writeControl 0x80 = b.checkNotPending (.next (if b.en then b else b.enable)) := by
  simp [Block.writeControl]

theorem Block.writeControl_disable_next {b t : Block} :
    b.writeControl 0x00 = .next t ↔ b.pending = none ∧ b.phase = .idle ∧ t = b.disable := by
  rw [Block.writeControl_disable, Block.checkNotPending_next]
  cases b.phase <;> simp [eq_comm]

theorem Block.writeControl_enable_next {b t : Block} :
    b.writeControl 0x80 = .next t ↔ b.pending = none ∧ t = if b.en then b else b.enable := by
  rw [Block.writeControl_enable, Block.checkNotPending_next, Host.Outcome.next.injEq, @eq_comm _ _ t]

theorem State.onBlock_next {s t : State} {o : BlockOut} :
    s.onBlock o = .next t ↔ ∃ b, o = .next b ∧ t = s.withBlock b := by
  cases o <;> simp [State.onBlock, eq_comm]

theorem mapNext_next {f : State → State} {o : Out} {t : State} :
    mapNext f o = .next t ↔ ∃ s, o = .next s ∧ t = f s := by
  cases o <;> simp [mapNext, eq_comm]

/-- Everything a completion can do. -/
theorem Block.complete_next {a : Bool} {d : Byte} {b t : Block} (h : b.complete a d = .next t) :
    (b.pending = none ∧ t = b) ∨
    ∃ p, b.pending = some p ∧
      ((p.sto = false ∧ t = (b.beforeStop p a d).finish) ∨
        (p.sto = true ∧ (b.beforeStop p a d).phase ≠ .heldS ∧ t = (b.beforeStop p a d).stopPart.finish)) := by
  unfold Block.complete at h
  split at h
  · left
    simp_all
  · rename_i p hp
    right
    refine ⟨p, hp, ?_⟩
    cases hs : p.sto <;> simp only [hs] at h
    · left
      simpa [eq_comm] using h
    · right
      simp only [if_true] at h
      split at h
      · exact absurd h (by simp)
      · exact ⟨rfl, ‹_›, by simpa [eq_comm] using h⟩

/-! What a completion leaves alone. -/

section
variable (p : Command) (a : Bool) (d : Byte) (b : Block)

theorem Block.beforeStop_frame :
    (b.beforeStop p a d).prerLo = b.prerLo ∧ (b.beforeStop p a d).prerHi = b.prerHi ∧
    (b.beforeStop p a d).en = b.en ∧ (b.beforeStop p a d).txr = b.txr ∧
    (b.beforeStop p a d).pending = b.pending ∧ (b.beforeStop p a d).irqFlag = b.irqFlag ∧
    (b.beforeStop p a d).loWritten = b.loWritten ∧ (b.beforeStop p a d).hiWritten = b.hiWritten ∧
    (b.beforeStop p a d).configured = b.configured ∧ (b.beforeStop p a d).settleUs = b.settleUs ∧
    (b.beforeStop p a d).fault = b.fault := by
  unfold Block.beforeStop Block.readPart Block.writePart Block.startPart
  cases p.sta <;> cases p.wr <;> cases p.rd <;> simp

/-- The symbols a command puts on the bus before its STOP. -/
def Command.symbols (p : Command) (a : Bool) (d : Byte) : List Symbol :=
  (if p.sta then [.start] else []) ++
    (match p.wr with | some byte => sentBits byte ++ [.sack a] | none => []) ++
    (if p.rd then receivedBits d ++ [.mack p.ack] else [])

theorem Block.beforeStop_trace : (b.beforeStop p a d).trace = b.trace ++ p.symbols a d := by
  unfold Block.beforeStop Block.readPart Block.writePart Block.startPart Command.symbols
  cases p.sta <;> cases p.wr <;> cases p.rd <;> simp

theorem Block.beforeStop_rxack : (b.beforeStop p a d).rxack = p.wr.map fun _ => a := by
  unfold Block.beforeStop Block.readPart Block.writePart Block.startPart
  cases p.sta <;> cases p.wr <;> cases p.rd <;> simp

theorem Block.beforeStop_rxr : (b.beforeStop p a d).rxr = if p.rd then d else b.rxr := by
  unfold Block.beforeStop Block.readPart Block.writePart Block.startPart
  cases p.sta <;> cases p.wr <;> cases p.rd <;> simp

end

end Sys2Proof.Machine
end

