-- ==== Sys2Proof/Laws/Exec.lean ====
section
/-! SUPPORT. What one access, one host step and one step can do: the inversion lemmas every invariant is derived from. -/

namespace Sys2Proof.Machine

/-- What an access that is accepted does to the block. -/
inductive AccessEffect (b : Block) : Block → Prop where
  | none : AccessEffect b b
  | prescaleLow (v : Byte) (he : b.en = false) (hc : b.configured = false) :
      AccessEffect b { b with prerLo := v, loWritten := true }
  | prescaleHigh (v : Byte) (he : b.en = false) (hc : b.configured = false) :
      AccessEffect b { b with prerHi := v, hiWritten := true }
  | disable (hp : b.pending = Option.none) (hi : b.phase = .idle) : AccessEffect b b.disable
  | enable (hp : b.pending = Option.none) (he : b.en = false) : AccessEffect b b.enable
  | transmit (v : Byte) (hp : b.pending = Option.none) : AccessEffect b { b with txr := v }
  | iack : AccessEffect b b.clearIrq
  | accept (c : CommandBits) (i : Bool)
      (hc : c ∈ CommandBits.admitted)
      (hp : b.pending = Option.none) (he : b.en = true) (hf : b.configured = true)
      (hs : Config.tSettleUs ≤ b.settleUs)
      (hl : b.phase.Allows c) :
      AccessEffect b (b.accept c i)

/-- An accepted transfer is an `accept` effect. -/
theorem accessEffect_of_transfer {s t : State} {c : CommandBits} {i : Bool}
    (hc : c ∈ CommandBits.admitted)
    (h : s.onBlock (s.block.transfer c i) = .next t) :
    ∃ b, AccessEffect s.block b ∧ t = s.withBlock b := by
  obtain ⟨b, hb, rfl⟩ := State.onBlock_next.mp h
  obtain ⟨-, ⟨hp, he, hf, hs⟩, hl, rfl⟩ := Block.transfer_next.mp hb
  exact ⟨_, .accept c i hc hp he hf hs hl, rfl⟩

/-- An accepted access changes the block by an `AccessEffect`, or answers a read and changes no block. -/
theorem exec_next {i : Instr} {s t : State} (h : exec i s = .next t) :
    (∃ b, AccessEffect s.block b ∧ t = s.withBlock b) ∨
      (∃ x, t = s.answer x) ∨ ∃ x, t = s.answerDrawn x := by
  cases i with
  | wrPrerlo v =>
    obtain ⟨b, hb, rfl⟩ := State.onBlock_next.mp h
    obtain ⟨he, hc, hk⟩ := Block.checkPrescale_next.mp hb
    cases hk
    exact .inl ⟨_, .prescaleLow v he hc, rfl⟩
  | wrPrerhi v =>
    obtain ⟨b, hb, rfl⟩ := State.onBlock_next.mp h
    obtain ⟨he, hc, hk⟩ := Block.checkPrescale_next.mp hb
    cases hk
    exact .inl ⟨_, .prescaleHigh v he hc, rfl⟩
  | wrCtrDisable =>
    obtain ⟨b, hb, rfl⟩ := State.onBlock_next.mp h
    obtain ⟨hp, hi, rfl⟩ := Block.writeControl_disable_next.mp hb
    exact .inl ⟨_, .disable hp hi, rfl⟩
  | wrCtrEnable =>
    obtain ⟨b, hb, rfl⟩ := State.onBlock_next.mp h
    obtain ⟨hp, rfl⟩ := Block.writeControl_enable_next.mp hb
    cases he : s.block.en
    · exact .inl ⟨_, .enable hp he, by simp⟩
    · exact .inl ⟨_, .none, by simp⟩
  | wrTxr v =>
    obtain ⟨b, hb, rfl⟩ := State.onBlock_next.mp h
    obtain ⟨hp, hk⟩ := Block.checkNotPending_next.mp hb
    cases hk
    exact .inl ⟨_, .transmit v hp, rfl⟩
  | cmdNop => exact .inl ⟨_, .none, by simpa [exec, execCmdNop, eq_comm] using h⟩
  | cmdIack => exact .inl ⟨_, .iack, by simpa [exec, execCmdIack, eq_comm] using h⟩
  | cmdStartWrite j => exact .inl (accessEffect_of_transfer (by decide) h)
  | cmdWrite j => exact .inl (accessEffect_of_transfer (by decide) h)
  | cmdRead j => exact .inl (accessEffect_of_transfer (by decide) h)
  | cmdReadNackStop j => exact .inl (accessEffect_of_transfer (by decide) h)
  | cmdStop j => exact .inl (accessEffect_of_transfer (by decide) h)
  | cmdStartWriteStop j => exact .inl (accessEffect_of_transfer (by decide) h)
  | cmdWriteStop j => exact .inl (accessEffect_of_transfer (by decide) h)
  | rdPrerlo => exact .inr (.inr ⟨_, by simpa [exec, execRdPrerlo, eq_comm] using h⟩)
  | rdPrerhi => exact .inr (.inr ⟨_, by simpa [exec, execRdPrerhi, eq_comm] using h⟩)
  | rdCtr => exact .inr (.inr ⟨_, by simpa [exec, execRdCtr, eq_comm] using h⟩)
  | rdSr => exact .inr (.inr ⟨_, by simpa [exec, execRdSr, eq_comm] using h⟩)
  | rdRxr =>
    simp only [exec, execRdRxr] at h
    split at h
    · exact .inr (.inr ⟨_, by simpa [eq_comm] using h⟩)
    · exact .inr (.inl ⟨_, by simpa [eq_comm] using h⟩)
  | wrCtrReserved v => exact absurd h (by simp [exec, execWrCtrReserved])
  | cmdReservedBits c => exact absurd h (by simp [exec, execCmdReservedBits])
  | cmdUnfoldedStop j => exact absurd h (by simp [exec, execCmdUnfoldedStop])
  | cmdAckedReadStop j => exact absurd h (by simp [exec, execCmdAckedReadStop])
  | cmdIllegal c => exact absurd h (by simp [exec, execCmdIllegal])
  | accUnmapped w off d => exact absurd h (by simp [exec, execAccUnmapped])

/-- What an access leaves alone: the parameters, the schedule and the host's program and procedure. -/
theorem exec_frame {i : Instr} {s t : State} (h : exec i s = .next t) :
    AccessEffect s.block t.block ∧ t.params = s.params ∧ t.turns = s.turns ∧
      t.host.program = s.host.program ∧ t.host.proc = s.host.proc ∧ t.host.results = s.host.results := by
  rcases exec_next h with ⟨b, hb, rfl⟩ | ⟨x, rfl⟩ | ⟨x, rfl⟩
  · exact ⟨hb, rfl, rfl, rfl, rfl, rfl⟩
  · exact ⟨.none, rfl, rfl, rfl, rfl, rfl⟩
  · exact ⟨.none, rfl, rfl, rfl, rfl, rfl⟩

/-- What one action of the host does to the block: an access effect, or a delay. -/
theorem act_next {s t : State} {x : Action} (h : s.act x = .next t) :
    (AccessEffect s.block t.block ∨ ∃ n, t.block = s.block.delay n) ∧ t.params = s.params := by
  cases x with
  | write off v =>
    obtain ⟨he, hp, -⟩ := exec_frame h
    exact ⟨.inl he, hp⟩
  | read off =>
    obtain ⟨he, hp, -⟩ := exec_frame h
    exact ⟨.inl he, hp⟩
  | delay n =>
    simp only [State.act, Host.Outcome.next.injEq] at h
    subst h
    exact ⟨.inr ⟨n, rfl⟩, rfl⟩

/-- What one action of a procedure does to the block. -/
theorem runProc_next {s t : State} {q : Proc} (h : s.runProc q = .next t) :
    (AccessEffect s.block t.block ∨ ∃ n, t.block = s.block.delay n) ∧ t.params = s.params := by
  obtain ⟨u, hu, rfl⟩ := mapNext_next.mp h
  have := act_next hu
  exact this

/-- What one operation of the host's program does to the block. -/
theorem runOp_next {s t : State} {op : HostOp} (h : s.runOp op = .next t) :
    (AccessEffect s.block t.block ∨ ∃ n, t.block = s.block.delay n) ∧ t.params = s.params := by
  cases op with
  | access w =>
    simp only [State.runOp] at h
    split at h
    · obtain ⟨he, hp, -⟩ := exec_frame h
      exact ⟨.inl he, hp⟩
    · exact absurd h (by simp)
  | memWrite off v => exact act_next (x := .write off v) h
  | memRead off => exact act_next (x := .read off) h
  | delay n => exact act_next (x := .delay n) h
  | call c =>
    simp only [State.runOp] at h
    split at h
    · exact runProc_next h
    · exact absurd h (by simp)

/-- What a step of the host does to the block. -/
theorem hostStep_next {s t : State} (h : s.hostStep = .next t) :
    (AccessEffect s.block t.block ∨ ∃ n, t.block = s.block.delay n) ∧ t.params = s.params := by
  unfold State.hostStep at h
  split at h
  · exact runProc_next h
  · split at h
    · rename_i rest _
      exact runOp_next (s := s.withProgram rest) h
    · cases h
      exact ⟨.inl .none, rfl⟩

/-- Everything a step does to the block: an access effect, a delay, or a completion, and no step leaves a stopped
machine. -/
theorem step_next {s t : State} (h : step s = .next t) :
    s.block.fault = none ∧ t.params = s.params ∧
      (AccessEffect s.block t.block ∨ (∃ n, t.block = s.block.delay n) ∨
        ∃ a d, s.turns.head? = some (.complete a d) ∧ s.block.complete a d = .next t.block) := by
  unfold step at h
  split at h
  · exact absurd h (by simp)
  · rename_i hf
    refine ⟨hf, ?_⟩
    unfold State.agentStep at h
    split at h
    · obtain ⟨h1 | h1, hp⟩ := hostStep_next h
      · exact ⟨hp, .inl h1⟩
      · exact ⟨hp, .inr (.inl h1)⟩
    · rename_i rest _
      obtain ⟨h1 | h1, hp⟩ := hostStep_next (s := s.withTurns rest) h
      · exact ⟨hp, .inl h1⟩
      · exact ⟨hp, .inr (.inl h1)⟩
    · rename_i a d rest ht
      obtain ⟨b, hb, rfl⟩ := State.onBlock_next.mp h
      exact ⟨rfl, .inr (.inr ⟨a, d, by simp [ht], hb⟩)⟩

/-! Runs of several steps. -/

theorem runFor_zero (s : State) : runFor 0 s = .next s := rfl

theorem runFor_next {s t : State} (h : step s = .next t) (k : Nat) : runFor (k + 1) s = runFor k t := by
  simp only [runFor, h]

theorem runFor_fault {s : State} {f : Fault} (h : step s = .fault f) (k : Nat) : runFor (k + 1) s = .fault f := by
  simp only [runFor, h]

theorem runFor_refused {s : State} {r : Refusal} (h : step s = .refused r) (k : Nat) :
    runFor (k + 1) s = .refused r := by
  simp only [runFor, h]

/-- The run of the host's interface, one step unfolded. -/
theorem coreRun_succ (M : Host.Core) (k : Nat) (s : M.State) :
    (∀ t, M.step s = .next t → M.run (k + 1) s = M.run k t) ∧
    (∀ f, M.step s = .fault f → M.run (k + 1) s = .fault f) ∧
    (∀ r, M.step s = .refused r → M.run (k + 1) s = .refused r) := by
  refine ⟨fun t h => ?_, fun f h => ?_, fun r h => ?_⟩ <;> simp only [Host.Core.run, h]

/-- `runFor` is the run of the host's interface. -/
theorem runFor_eq_core_run (k : Nat) (s : State) : runFor k s = Sys2Proof.core.run k s := by
  induction k generalizing s with
  | zero => rfl
  | succ k ih =>
    obtain ⟨hn, hf, hr⟩ := coreRun_succ Sys2Proof.core k s
    cases h : step s with
    | next t => exact (runFor_next h k).trans ((ih t).trans (hn t h).symm)
    | fault f => exact (runFor_fault h k).trans (hf f h).symm
    | refused r => exact (runFor_refused h k).trans (hr r h).symm

end Sys2Proof.Machine
end

