-- ==== Sys2Proof/Laws/PerInstr.lean ====
section
/-! SUPPORT. Per instruction: the word of a well-formed instruction matches its own row of the opcode table. -/

namespace Sys2Proof.Laws.MatchesRow

/-- The encoding of `i` has the match bits of its row of 30_encoding.md R82, and meets the row's condition. -/
def Statement (i : Instr) : Prop :=
  i.WellFormed = true → (opcodeTable.all fun r => r.order != i.rowOrder || r.hit (encode i)) = true

theorem wrPrerlo (v : Byte) : Statement (.wrPrerlo v) := by
  revert v
  unfold Statement
  decide
theorem wrPrerhi (v : Byte) : Statement (.wrPrerhi v) := by
  revert v
  unfold Statement
  decide
theorem wrCtrDisable : Statement .wrCtrDisable := fun _ => by decide
theorem wrCtrEnable : Statement .wrCtrEnable := fun _ => by decide
theorem wrCtrReserved (v : Byte) : Statement (.wrCtrReserved v) := by
  revert v
  unfold Statement
  decide
theorem wrTxr (v : Byte) : Statement (.wrTxr v) := by
  revert v
  unfold Statement
  decide
theorem cmdNop : Statement .cmdNop := fun _ => by decide
theorem cmdIack : Statement .cmdIack := fun _ => by decide
theorem cmdStartWrite (i : Bool) : Statement (.cmdStartWrite i) := fun _ => by revert i; decide
theorem cmdWrite (i : Bool) : Statement (.cmdWrite i) := fun _ => by revert i; decide
theorem cmdRead (i : Bool) : Statement (.cmdRead i) := fun _ => by revert i; decide
theorem cmdReadNackStop (i : Bool) : Statement (.cmdReadNackStop i) := fun _ => by revert i; decide
theorem cmdStop (i : Bool) : Statement (.cmdStop i) := fun _ => by revert i; decide
theorem cmdStartWriteStop (i : Bool) : Statement (.cmdStartWriteStop i) := fun _ => by revert i; decide
theorem cmdWriteStop (i : Bool) : Statement (.cmdWriteStop i) := fun _ => by revert i; decide
theorem cmdReservedBits (c : Byte) : Statement (.cmdReservedBits c) := by
  revert c
  unfold Statement
  decide
theorem cmdUnfoldedStop (i : Bool) : Statement (.cmdUnfoldedStop i) := fun _ => by revert i; decide
theorem cmdAckedReadStop (i : Bool) : Statement (.cmdAckedReadStop i) := fun _ => by revert i; decide
theorem cmdIllegal (c : Byte) : Statement (.cmdIllegal c) := by
  revert c
  unfold Statement
  decide
theorem rdPrerlo : Statement .rdPrerlo := fun _ => by decide
theorem rdPrerhi : Statement .rdPrerhi := fun _ => by decide
theorem rdCtr : Statement .rdCtr := fun _ => by decide
theorem rdRxr : Statement .rdRxr := fun _ => by decide
theorem rdSr : Statement .rdSr := fun _ => by decide
theorem accUnmapped (w : Bool) (off : Nat) (d : Byte) : Statement (.accUnmapped w off d) := fun _ => by
  simp [opcodeTable, Instr.rowOrder, OpcodeRow.hit]

end Sys2Proof.Laws.MatchesRow
end

