-- ==== Sys2Proof/Tests/Slice0.lean ====
section
/-! SUPPORT. The model's own tests: refused ill-formed terms, words written out from the spec's encodings, single steps
on the vectors of spec 95_test_vectors.md, and witnesses of the hypotheses of the statements. -/

namespace Sys2Proof.Tests

open Sys2Proof Sys2Proof.Machine

/-! ## Helpers -/

/-- The default parameters, with values for the OPEN ones. -/
def params : Config.Params := ⟨.inProgress, .allCommands, none, 7, 255, 0x50, 0xFA⟩

/-- `C` of 95_test_vectors.md section 0, with values for TXR and RXR. -/
def ready : Block where
  prerLo := 0x00
  prerHi := 0x04
  en := true
  txr := 0xA0
  rxr := 0x11
  pending := none
  phase := .idle
  rxack := none
  irqFlag := false
  loWritten := true
  hiWritten := true
  configured := true
  settleUs := 100
  fault := none
  trace := []

/-- `S0` of 95_test_vectors.md section 0, with values for the four drawn registers. -/
def fresh : Block :=
  { ready with en := false, loWritten := false, hiWritten := false, configured := false, settleUs := 0 }

/-- The command START+WRITE with a byte. -/
def startWrite (b : Byte) : Command := { sta := true, sto := false, rd := false, wr := some b, ack := false }

/-- `C` with 0x90 pending. -/
def busy : Block := { ready with pending := some (startWrite 0xA0) }

/-- `C` after START+WRITE of 0xA0, acknowledged. -/
def heldM : Block :=
  { ready with
    phase := .heldM, rxack := some false, irqFlag := true, trace := .start :: sentBits 0xA0 ++ [.sack false] }

/-- `C` after START+WRITE of 0xA1, acknowledged. -/
def heldS : Block :=
  { ready with
    phase := .heldS, rxack := some false, irqFlag := true, trace := .start :: sentBits 0xA1 ++ [.sack false] }

/-- `C` with 0xD0 pending, on the byte 0xA1. -/
def probe : Block :=
  { ready with pending := some { sta := true, sto := true, rd := false, wr := some 0xA1, ack := false } }

/-- A machine with this block, this program and this schedule. -/
def machine (b : Block) (program : List HostOp := []) (turns : List Turn := []) : State where
  params := params
  block := b
  host := { program := program, proc := none, rdata := 0x00, results := [] }
  turns := turns
  draws := 5

/-- A machine whose host is in a poll. -/
def polling (b : Block) (part : PollAt) (limit : Option Nat := none) (turns : List Turn := []) : State :=
  { machine b [] turns with
    params := { params with pollLimit := limit }
    host := { program := [], proc := some { task := .poll part 0 .answer, callers := [] }, rdata := 0, results := [] } }

/-- The block of a next state. -/
def blockOf : Out → Option Block
  | .next t => some t.block
  | _ => none

/-- The byte the host read in a next state. -/
def readOf : Out → Option Byte
  | .next t => some t.host.rdata
  | _ => none

/-- The fault a step ends in. -/
def faultOf : Out → Option Fault
  | .fault f => some f
  | _ => none

/-- The refusal a step ends in. -/
def refusalOf : Out → Option Refusal
  | .refused r => some r
  | _ => none

/-- A completion of a block that is next. -/
def completed : BlockOut → Option Block
  | .next b => some b
  | _ => none

/-- What decodes from a number. -/
def decoded (n : Nat) : Option Instr := (decodeWord n).toOption

/-! ## WellFormed refuses an ill-formed term for each of its checks (30_encoding.md R82) -/

theorem test_illformed_ctr_enable_as_reserved : (Instr.wrCtrReserved 0x80).WellFormed = false := by decide
theorem test_illformed_ctr_disable_as_reserved : (Instr.wrCtrReserved 0x00).WellFormed = false := by decide
theorem test_illformed_reserved_bits : (Instr.cmdReservedBits 0x90).WellFormed = false := by decide
theorem test_illformed_illegal_is_named : (Instr.cmdIllegal 0x91).WellFormed = false := by decide
theorem test_illformed_illegal_is_reserved : (Instr.cmdIllegal 0x02).WellFormed = false := by decide
theorem test_illformed_unmapped_is_mapped : (Instr.accUnmapped true 0x10 0x90).WellFormed = false := by decide
theorem test_illformed_unmapped_too_far : (Instr.accUnmapped true 32 0).WellFormed = false := by decide
theorem test_illformed_unmapped_read_data : (Instr.accUnmapped false 0x14 1).WellFormed = false := by decide

/-! ## Words written out from the table of 30_encoding.md R82, one for each constructor -/

theorem test_word_wrPrerlo : decoded 0b1_00000_00000000 = some (.wrPrerlo 0x00) := by decide
theorem test_word_wrPrerhi : decoded 0b1_00100_00000100 = some (.wrPrerhi 0x04) := by decide
theorem test_word_wrCtrDisable : decoded 0b1_01000_00000000 = some .wrCtrDisable := by decide
theorem test_word_wrCtrEnable : decoded 0b1_01000_10000000 = some .wrCtrEnable := by decide
theorem test_word_wrCtrReserved : decoded 0b1_01000_10000001 = some (.wrCtrReserved 0x81) := by decide
theorem test_word_wrTxr : decoded 0b1_01100_10100000 = some (.wrTxr 0xA0) := by decide
theorem test_word_cmdNop : decoded 0b1_10000_00000000 = some .cmdNop := by decide
theorem test_word_cmdIack : decoded 0b1_10000_00000001 = some .cmdIack := by decide
theorem test_word_cmdStartWrite : decoded 0b1_10000_10010000 = some (.cmdStartWrite false) := by decide
theorem test_word_cmdWrite : decoded 0b1_10000_00010001 = some (.cmdWrite true) := by decide
theorem test_word_cmdRead : decoded 0b1_10000_00100000 = some (.cmdRead false) := by decide
theorem test_word_cmdReadNackStop : decoded 0b1_10000_01101000 = some (.cmdReadNackStop false) := by decide
theorem test_word_cmdStop : decoded 0b1_10000_01000000 = some (.cmdStop false) := by decide
theorem test_word_cmdStartWriteStop : decoded 0b1_10000_11010001 = some (.cmdStartWriteStop true) := by decide
theorem test_word_cmdWriteStop : decoded 0b1_10000_01010000 = some (.cmdWriteStop false) := by decide
theorem test_word_cmdReservedBits : decoded 0b1_10000_00101010 = some (.cmdReservedBits 0x2A) := by decide
theorem test_word_cmdUnfoldedStop : decoded 0b1_10000_00101000 = some (.cmdUnfoldedStop false) := by decide
theorem test_word_cmdAckedReadStop : decoded 0b1_10000_01100001 = some (.cmdAckedReadStop true) := by decide
theorem test_word_cmdIllegal : decoded 0b1_10000_00110000 = some (.cmdIllegal 0x30) := by decide
theorem test_word_rdPrerlo : decoded 0b0_00000_00000000 = some .rdPrerlo := by decide
theorem test_word_rdPrerhi : decoded 0b0_00100_00000000 = some .rdPrerhi := by decide
theorem test_word_rdCtr : decoded 0b0_01000_00000000 = some .rdCtr := by decide
theorem test_word_rdRxr : decoded 0b0_01100_00000000 = some .rdRxr := by decide
theorem test_word_rdSr : decoded 0b0_10000_00000000 = some .rdSr := by decide
theorem test_word_accUnmapped_write : decoded 0b1_10100_00000000 = some (.accUnmapped true 0x14 0) := by decide
theorem test_word_accUnmapped_read : decoded 0b0_00001_00000000 = some (.accUnmapped false 1 0) := by decide
theorem test_word_malformed_read : decodeWord 0b0_10000_00000001 = .error .readWithData := by rfl
theorem test_word_too_wide : decodeWord 0x4000 = .error .tooWide := by rfl

/-! ## Operands (95_test_vectors.md section 1.1) -/

theorem test_busbyte_scenario : busByte 0x50 false = 0xA0 ∧ busByte 0x50 true = 0xA1 := by decide
theorem test_busbyte_is_masked : busByte 0xD0 true = 0xA1 ∧ busByte 0xFF false = 0xFE := by decide
theorem test_bigEndianBytes : bigEndianBytes 0xC0A80A05 = [0xC0, 0xA8, 0x0A, 0x05] := by decide
theorem test_promOfBytes : promOfBytes [0xC0, 0xA8, 0x0A, 0x05] = .promValue 0xC0A80A05 := by decide
theorem test_uniqueIdOfBytes : uniqueIdOfBytes [0x00, 0x04, 0xA3, 0x11, 0xAB, 0xCD] = .uniqueId 0xABCD := by decide
theorem test_dottedTail : dottedTail 0xC0A80A05 = (10, 5) := by decide
theorem test_promptValue : promptValue ['C', '0', 'A', '8', '0', 'z', '0', '5'] = 0xC0A80005 := by decide

/-! ## One step of an instruction (95_test_vectors.md 40-1 to 41-20) -/

theorem test_wrPrerlo : blockOf (exec (.wrPrerlo 0x12) (machine fresh)) =
    some { fresh with prerLo := 0x12, loWritten := true } := by decide
theorem test_wrPrerlo_enabled : faultOf (exec (.wrPrerlo 0x12) (machine ready)) = some .prescaleWhileEnabled := by decide
theorem test_wrPrerhi : blockOf (exec (.wrPrerhi 0x05) (machine fresh)) =
    some { fresh with prerHi := 0x05, hiWritten := true } := by decide
theorem test_wrPrerhi_configured : refusalOf (exec (.wrPrerhi 0) (machine { ready with en := false })) =
    some .reconfigure := by decide
theorem test_wrCtrEnable_unconfigured : blockOf (exec .wrCtrEnable (machine fresh)) =
    some { fresh with en := true } := by decide
theorem test_wrCtrEnable_pending : faultOf (exec .wrCtrEnable (machine busy)) = some .accessDuringTransfer := by decide
theorem test_wrCtrDisable : blockOf (exec .wrCtrDisable (machine ready)) =
    some { ready with en := false, settleUs := 0 } := by decide
theorem test_wrCtrDisable_held : faultOf (exec .wrCtrDisable (machine heldM)) = some .disableWhileActive := by decide
theorem test_wrCtrReserved_pending : refusalOf (exec (.wrCtrReserved 0x81) (machine busy)) =
    some .controlReservedBits := by decide
theorem test_wrTxr_heldS : blockOf (exec (.wrTxr 0x37) (machine heldS)) = some { heldS with txr := 0x37 } := by decide
theorem test_wrTxr_pending : faultOf (exec (.wrTxr 0x55) (machine busy)) = some .accessDuringTransfer := by decide
theorem test_cmdNop_pending : blockOf (exec .cmdNop (machine busy)) = some busy := by decide
theorem test_cmdIack_heldM : blockOf (exec .cmdIack (machine heldM)) = some { heldM with irqFlag := false } := by decide
theorem test_cmdStartWrite : blockOf (exec (.cmdStartWrite false) (machine ready)) = some busy := by decide
theorem test_cmdStartWrite_settle : faultOf (exec (.cmdStartWrite false) (machine { ready with settleUs := 99 })) =
    some .commandBeforeSettle := by decide
theorem test_cmdWrite_iack : blockOf (exec (.cmdWrite true) (machine { heldM with txr := 0x44 })) =
    some { heldM with
      txr := 0x44, irqFlag := false
      pending := some { sta := false, sto := false, rd := false, wr := some 0x44, ack := false } } := by decide
theorem test_cmdWrite_idle : faultOf (exec (.cmdWrite false) (machine ready)) = some .noStart := by decide
theorem test_cmdRead_heldS : blockOf (exec (.cmdRead false) (machine heldS)) =
    some { heldS with pending := some { sta := false, sto := false, rd := true, wr := none, ack := false } } := by decide
theorem test_cmdRead_heldM : faultOf (exec (.cmdRead false) (machine heldM)) = some .wrongDirection := by decide
theorem test_cmdReadNackStop_heldS : blockOf (exec (.cmdReadNackStop false) (machine heldS)) =
    some { heldS with pending := some { sta := false, sto := true, rd := true, wr := none, ack := true } } := by decide
theorem test_cmdReadNackStop_heldM : faultOf (exec (.cmdReadNackStop false) (machine heldM)) =
    some .wrongDirection := by decide
theorem test_cmdStop_heldM : blockOf (exec (.cmdStop false) (machine heldM)) =
    some { heldM with pending := some { sta := false, sto := true, rd := false, wr := none, ack := false } } := by decide
theorem test_cmdStop_heldS : faultOf (exec (.cmdStop false) (machine heldS)) = some (.slaveHoldsBus []) := by decide
theorem test_cmdStartWriteStop : blockOf (exec (.cmdStartWriteStop true) (machine { ready with irqFlag := true })) =
    some { ready with
      pending := some { sta := true, sto := true, rd := false, wr := some 0xA0, ack := false } } := by decide
theorem test_cmdWriteStop_heldM : blockOf (exec (.cmdWriteStop false) (machine { heldM with txr := 0x33 })) =
    some { heldM with
      txr := 0x33
      pending := some { sta := false, sto := true, rd := false, wr := some 0x33, ack := false } } := by decide
theorem test_cmdReservedBits_fresh : refusalOf (exec (.cmdReservedBits 0x02) (machine fresh)) =
    some .commandReservedBits := by decide
theorem test_cmdUnfoldedStop_fresh : faultOf (exec (.cmdUnfoldedStop false) (machine fresh)) =
    some .unfoldedStop := by decide
theorem test_cmdAckedReadStop_pending : faultOf (exec (.cmdAckedReadStop false) (machine busy)) =
    some (.slaveHoldsBus []) := by decide
theorem test_cmdIllegal : refusalOf (exec (.cmdIllegal 0x48) (machine ready)) = some .illegalCombination := by decide
theorem test_rdPrerlo_keeps_block : blockOf (exec .rdPrerlo (machine ready)) = some ready := by decide
theorem test_rdPrerhi_keeps_block : blockOf (exec .rdPrerhi (machine ready)) = some ready := by decide
theorem test_rdCtr_keeps_block : blockOf (exec .rdCtr (machine ready)) = some ready := by decide
theorem test_rdRxr : readOf (exec .rdRxr (machine ready)) = some 0x11 := by decide
theorem test_accUnmapped : refusalOf (exec (.accUnmapped true 0x14 0) (machine fresh)) = some .unmappedOffset := by decide

/-! The status byte, its drawn bits masked (95_test_vectors.md 40-17, 40-18, 42-3, 43-8, 43-10). -/

theorem test_status_fresh (x : Byte) : statusByte params fresh x &&& 0x63 = 0x00 := by revert x; decide
theorem test_status_busy (x : Byte) : statusByte params busy x &&& 0x63 = 0x42 := by revert x; decide
theorem test_status_nack (x : Byte) :
    statusByte params { heldM with rxack := some true } x &&& 0xE3 = 0x81 := by revert x; decide
theorem test_status_bus_held (x : Byte) :
    statusByte { params with bit6 := .busHeld } heldM x &&& 0xE3 = 0x41 := by revert x; decide
theorem test_status_stop_pending_byte_scope (x : Byte) :
    statusByte { params with tipScope := .byteCommands }
      { heldM with pending := some { sta := false, sto := true, rd := false, wr := none, ack := false } } x &&& 0x63 =
      0x41 := by revert x; decide

/-! ## One completion (95_test_vectors.md 42-1 to 42-13) -/

theorem test_complete_startWrite : completed (busy.complete false 0) = some heldM := by decide
theorem test_complete_startWrite_nack :
    (completed ({ ready with pending := some (startWrite 0xA1) }.complete true 0)).map
      (fun b => (b.phase, b.rxack)) = some (.heldM, some true) := by decide
theorem test_complete_startWrite_read :
    (completed ({ ready with pending := some (startWrite 0xA1) }.complete false 0)).map Block.phase =
      some .heldS := by decide
theorem test_complete_read :
    completed ({ heldS with
      pending := some { sta := false, sto := false, rd := true, wr := none, ack := false } }.complete true 0x3C) =
    some { heldS with
      rxack := none, rxr := 0x3C
      trace := heldS.trace ++
        [.sbit false, .sbit false, .sbit true, .sbit true, .sbit true, .sbit true, .sbit false, .sbit false] ++
        [.mack false] } := by decide
theorem test_complete_probe_faults : (stepKept (machine probe [] [.complete false 0])).block =
    { probe with fault := some .slaveHoldsBus, trace := .start :: sentBits 0xA1 ++ [.sack false] } := by decide

/-! ## A step, and a fetched word -/

theorem test_step_fetches_word : blockOf (step ((machine ready).withFetchWord 16 0x3090)) = some busy := by decide
theorem test_step_from_reset : faultOf (step (State.reset.withFetchWord 16 0x3090)) =
    some .commandWhileDisabled := by decide
theorem test_step_halted : faultOf (step (machine { ready with fault := some .noStart } [.access 0x3000])) =
    some (.halted .noStart) := by decide
theorem test_step_malformed : refusalOf (step (machine ready [.access 0x1001])) = some .malformedAccessWord := by decide
theorem test_step_delay : blockOf (step (machine ready [.delay 7])) = some { ready with settleUs := 107 } := by decide
theorem test_step_too_long :
    refusalOf (step { machine ready [.call (.write 0x50 [0, 1] true)] with params := { params with bufCap := 1 } }) =
      some .payloadTooLong := by decide

/-! ## Witnesses: the hypotheses of each statement, met together -/

/-- The pending command WRITE, with or without a STOP. -/
def writing (sto : Bool) : Block :=
  { heldM with pending := some { sta := false, sto := sto, rd := false, wr := some 0x44, ack := false } }

/-- The pending command READ, or the final READ. -/
def reading (last : Bool) : Block :=
  { heldS with pending := some { sta := false, sto := last, rd := true, wr := none, ack := last } }

/-- The pending command STOP. -/
def stopping : Block :=
  { heldM with pending := some { sta := false, sto := true, rd := false, wr := none, ack := false } }

theorem witness_ready : ready.Ready ∧ heldM.Ready ∧ heldS.Ready :=
  ⟨⟨rfl, rfl, rfl, Nat.le_refl _⟩, ⟨rfl, rfl, rfl, Nat.le_refl _⟩, ⟨rfl, rfl, rfl, Nat.le_refl _⟩⟩

theorem witness_inv_ready : ready.Inv where
  written _ := ⟨rfl, rfl⟩
  held h := absurd rfl h
  pending _ h := by cases h
  traced := rfl

theorem witness_inv_busy : busy.Inv where
  written _ := ⟨rfl, rfl⟩
  held h := absurd rfl h
  pending p h := by
    cases h
    exact ⟨rfl, by decide, by unfold Command.Admitted; decide, rfl⟩
  traced := rfl

theorem witness_inv_probe : probe.Inv where
  written _ := ⟨rfl, rfl⟩
  held h := absurd rfl h
  pending p h := by
    cases h
    exact ⟨rfl, by decide, by unfold Command.Admitted; decide, rfl⟩
  traced := rfl

theorem witness_inv_reading : (reading false).Inv where
  written _ := ⟨rfl, rfl⟩
  held _ := ⟨rfl, by decide⟩
  pending p h := by
    cases h
    exact ⟨rfl, by decide, by unfold Command.Admitted; decide, rfl⟩
  traced := rfl

/-- What `machine b p t` holds: its block, program and schedule, and no procedure, as the witnesses below use it. -/
theorem witness_machine (b : Block) (p : List HostOp) (t : List Turn) :
    (machine b p t).block = b ∧ (machine b p t).host.program = p ∧ (machine b p t).host.proc = none ∧
      (machine b p t).turns = t := ⟨rfl, rfl, rfl, rfl⟩

theorem witness_DecodeOfEncodeIsTheInstruction :
    (Instr.accUnmapped true 31 0xFF).WellFormed = true ∧ (Instr.accUnmapped false 1 0).WellFormed = true ∧
      (Instr.cmdIllegal 0xF9).WellFormed = true ∧ (Instr.cmdReservedBits 0xFF).WellFormed = true ∧
      (Instr.wrCtrReserved 0xFF).WellFormed = true := by decide
theorem witness_EncodeOfDecodeIsTheWord : decodeWord 0x3FFF = .ok (.accUnmapped true 31 0xFF) := by rfl
theorem witness_DecodeFollowsTheFirstMatchingRow : decodeWord 0x3091 = .ok (.cmdStartWrite true) := by rfl
theorem witness_MalformedWordsAreRejectedByName :
    decodeWord 0x4000 = .error .tooWide ∧ decodeWord 0x1FFF = .error .readWithData ∧
      decodeWord 0x2001 = .ok (.wrPrerlo 1) := ⟨rfl, rfl, rfl⟩
theorem witness_BusAddressByteIsMaskedAddressAndDirection : (0xFF : Byte).getLsbD 6 = true ∧ 6 < 7 := by decide
theorem witness_StepRunsTheDecodedAccess :
    ((machine ready).block.fault = none ∧ (machine ready).host.proc = none ∧
      decodeTableWord 16 0x3090 = some (.cmdStartWrite false)) ∧
    (machine ready [.access 0x1000]).host.program = [.access 0x1000] ∧ decodeWord 0x1000 = .ok .rdSr ∧
    (machine ready [.access 0x1000] [.host]).turns = [.host] ∧
    (machine ready [.memWrite 0x10 0x90]).host.program = [.memWrite 0x10 0x90] ∧
    (machine ready [.memRead 0x14]).host.program = [.memRead 0x14] ∧
    (machine busy [] [.complete true 0]).turns = [.complete true 0] := ⟨⟨rfl, rfl, rfl⟩, rfl, rfl, rfl, rfl, rfl, rfl⟩
theorem witness_StoppedMachineTakesNoStep : (machine { busy with fault := some .noStart }).block.fault = some .noStart :=
  rfl
theorem witness_StopsOfTheHostArePrecise :
    step (machine ready [.access 0x3020]) = .fault .noStart ∧
    step (machine ready [.access 0x3400]) = .refused .unmappedOffset ∧
    Refusal.unmappedOffset.code = some .unmappedOffset ∧ (machine ready [.access 0x3400]).turns = [] :=
  ⟨rfl, rfl, rfl, rfl⟩
theorem witness_StepKeepsParametersAndNoFaultMark : ∃ t, step (machine busy [] [.complete false 0]) = .next t := ⟨_, rfl⟩
theorem witness_PrescaleWritesStoreTheirByte :
    ready.en = true ∧ (({ ready with en := false } : Block).en = false ∧ ({ ready with en := false } : Block).configured = true) ∧
    (fresh.en = false ∧ fresh.configured = false) ∧ busy.Inv ∧ busy.pending ≠ none :=
  ⟨rfl, ⟨rfl, rfl⟩, ⟨rfl, rfl⟩, witness_inv_busy, by decide⟩
theorem witness_ControlWriteEnablesAndDisables :
    busy.pending ≠ none ∧ (heldM.pending = none ∧ heldM.phase ≠ .idle) ∧ (heldS.pending = none ∧ heldS.phase ≠ .idle) ∧
    (ready.pending = none ∧ ready.phase = .idle ∧ ready.en = true) ∧ (fresh.pending = none ∧ fresh.en = false) := by
  decide
theorem witness_WriteOnlyRegistersReadSomeByte :
    ∀ i ∈ [Instr.rdPrerlo, .rdPrerhi, .rdCtr], i ∈ [Instr.rdPrerlo, .rdPrerhi, .rdCtr, .rdRxr, .rdSr] := by decide
theorem witness_TransmitWriteStoresTheByte : busy.pending ≠ none ∧ ready.pending = none := by decide
theorem witness_ReceiveReadReturnsTheByte : busy.pending ≠ none ∧ ready.pending = none := by decide
theorem witness_DrawingReadsReturnTheNextFreeValue :
    busy.pending ≠ none ∧ ready.rxack = none ∧
      ({ params with bit6 := .busHeld } : Config.Params).bit6 = .busHeld := by decide
theorem witness_StatusReadReturnsTheFlags :
    (heldM.pending = none ∧ heldM.rxack = some false) ∧ params.bit6 = .inProgress ∧
    (({ params with bit6 := .busHeld } : Config.Params).bit6 = .busHeld ∧ heldS.pending = none) ∧
    stopping.pending.isSome = true ∧ busy.pending = some (startWrite 0xA0) := by decide
theorem witness_UnmappedAccessesAreRefusedInEveryState :
    ∀ off ∈ [1, 3, 5, 0xF, 0x11, 0x14, 32], off ≠ 0x0 ∧ off ≠ 0x4 ∧ off ≠ 0x8 ∧ off ≠ 0xC ∧ off ≠ 0x10 := by decide
theorem witness_DelayCountsOnlyWhileEnabled :
    (machine ready [.delay 7]).block.fault = none ∧ (machine ready [.delay 7]).host.proc = none ∧
    (machine ready [.delay 7]).turns = [] ∧ (machine ready [.delay 7]).host.program = [.delay 7] ∧
    ready.en = true ∧ fresh.en = false := by decide
theorem witness_ReadsChangeNoStateOfTheBlock :
    (∃ t, exec (decodeRead 0x0) (machine busy) = .next t) ∧ (∃ t, exec (decodeRead 0x10) (machine busy) = .next t) ∧
      ∃ t, exec (decodeRead 0xC) (machine ready) = .next t := ⟨⟨_, rfl⟩, ⟨_, rfl⟩, ⟨_, rfl⟩⟩
theorem witness_TransferCommandsAreAccepted :
    (∀ k, transferOf (.cmdStartWrite k) = some (.startWrite, k) ∧ ready.phase.Allows .startWrite) ∧
    (∀ k, transferOf (.cmdStartWriteStop k) = some (.startWriteStop, k) ∧ ready.phase.Allows .startWriteStop) ∧
    (∀ k, transferOf (.cmdWrite k) = some (.write, k) ∧ heldM.phase.Allows .write) ∧
    (∀ k, transferOf (.cmdWriteStop k) = some (.writeStop, k) ∧ heldM.phase.Allows .writeStop) ∧
    (∀ k, transferOf (.cmdStop k) = some (.stop, k) ∧ heldM.phase.Allows .stop) ∧
    (∀ k, transferOf (.cmdRead k) = some (.read, k) ∧ heldS.phase.Allows .read) ∧
    (∀ k, transferOf (.cmdReadNackStop k) = some (.readNackStop, k) ∧ heldS.phase.Allows .readNackStop) ∧
    ready.Ready ∧ heldM.Ready ∧ heldS.Ready :=
  ⟨fun _ => ⟨rfl, rfl⟩, fun _ => ⟨rfl, rfl⟩, fun _ => ⟨rfl, rfl⟩, fun _ => ⟨rfl, rfl⟩, fun _ => ⟨rfl, rfl⟩,
    fun _ => ⟨rfl, rfl⟩, fun _ => ⟨rfl, rfl⟩, witness_ready⟩
theorem witness_TransferPreconditionsFaultInOrder :
    transferOf (.cmdStop true) = some (.stop, true) ∧ busy.pending ≠ none ∧
    (fresh.pending = none ∧ fresh.en = false) ∧
    (({ fresh with en := true } : Block).en = true ∧ ({ fresh with en := true } : Block).configured = false) ∧
    (({ ready with settleUs := 99 } : Block).configured = true ∧ ({ ready with settleUs := 99 } : Block).settleUs < 100) := by
  decide
theorem witness_PhaseTableDecidesTransfers :
    (transferOf (.cmdStartWrite false) = some (.startWrite, false) ∧ CommandBits.startWrite.sta = true) ∧
    (transferOf (.cmdRead false) = some (.read, false) ∧ CommandBits.read.rd = true ∧ CommandBits.read.sta = false) ∧
    (transferOf (.cmdStop false) = some (.stop, false) ∧ CommandBits.stop.rd = false) ∧
    ready.phase = .idle ∧ heldM.phase = .heldM ∧ heldS.phase = .heldS ∧ ready.Ready ∧ heldM.Ready ∧ heldS.Ready :=
  ⟨⟨rfl, rfl⟩, ⟨rfl, rfl, rfl⟩, ⟨rfl, rfl⟩, rfl, rfl, rfl, witness_ready⟩
theorem witness_StaticallyIllegalCommandsStopInEveryState :
    (0x04 : Byte).getLsbD 2 = true ∧ (0x02 : Byte).getLsbD 1 = true ∧
    ((0x30 : Byte).getLsbD 5 = true ∧ (0x30 : Byte).getLsbD 4 = true) ∧
    ((0xA0 : Byte).getLsbD 7 = true ∧ (0xA0 : Byte).getLsbD 5 = true) ∧
    ((0x80 : Byte).getLsbD 7 = true ∧ (0x80 : Byte).getLsbD 4 = false) ∧
    ((0x08 : Byte).getLsbD 3 = true ∧ (0x08 : Byte).getLsbD 5 = false) ∧
    ((0x28 : Byte).getLsbD 5 = true ∧ (0x28 : Byte).getLsbD 3 = true ∧ (0x28 : Byte).getLsbD 6 = false) ∧
    ((0x60 : Byte).getLsbD 5 = true ∧ (0x60 : Byte).getLsbD 6 = true ∧ (0x60 : Byte).getLsbD 3 = false) := by decide
theorem witness_IackBitClearsTheFlagOfAcceptedCommands :
    (∃ t, exec (decodeWrite 0x10 0x11) (machine heldM) = .next t) ∧
      (∃ t, exec (decodeWrite 0x10 0x10) (machine heldM) = .next t) ∧
      ∃ t, exec (decodeWrite 0x10 0x01) (machine busy) = .next t := ⟨⟨_, rfl⟩, ⟨_, rfl⟩, ⟨_, rfl⟩⟩
theorem witness_AddressPhaseCompletes :
    busy.pending = some { sta := true, sto := false, rd := false, wr := some 0xA0, ack := false } ∧
      (0xA0 : Byte).getLsbD 0 = false ∧ (0xA1 : Byte).getLsbD 0 = true := by decide
theorem witness_PayloadWriteCompletes :
    (writing false).pending = some { sta := false, sto := false, rd := false, wr := some 0x44, ack := false } ∧
      (writing true).pending = some { sta := false, sto := true, rd := false, wr := some 0x44, ack := false } := by decide
theorem witness_ReadCompletes :
    (reading false).pending = some { sta := false, sto := false, rd := true, wr := none, ack := false } ∧
      (reading true).pending = some { sta := false, sto := true, rd := true, wr := none, ack := true } := by decide
theorem witness_StopCompletes :
    stopping.phase = .heldM ∧
      stopping.pending = some { sta := false, sto := true, rd := false, wr := none, ack := false } := by decide
theorem witness_StartWriteStopCompletesOrFindsTheSlaveHoldingTheBus :
    probe.pending = some { sta := true, sto := true, rd := false, wr := some 0xA1, ack := false } ∧
      (0xA1 : Byte).getLsbD 0 = true ∧ ¬ (true = false ∧ (0xA1 : Byte).getLsbD 0 = true) ∧
      ¬ (false = false ∧ (0xA0 : Byte).getLsbD 0 = true) := by decide
theorem witness_CompletionClearsPendingAndSetsTheFlag :
    busy.pending ≠ none ∧ params.bit6 = .inProgress ∧ ∃ t, busy.complete true 0 = .next t :=
  ⟨by decide, rfl, _, rfl⟩
theorem witness_CompletionAppendsTheStatedNumberOfSymbols :
    busy.pending = some (startWrite 0xA0) ∧ (startWrite 0xA0).Admitted ∧ ∃ t, busy.complete true 0 = .next t :=
  ⟨rfl, by unfold Command.Admitted; decide, _, rfl⟩
theorem witness_OnlyStartWriteStopFaultsAtCompletion :
    probe.Inv ∧ probe.complete false 0 = .fault (.slaveHoldsBus (.start :: sentBits 0xA1 ++ [.sack false])) ∧
      (probe.beforeStop { sta := true, sto := true, rd := false, wr := some 0xA1, ack := false } false 0).phase = .heldS :=
  ⟨witness_inv_probe, rfl, rfl⟩
theorem witness_CompletionFaultKeepsTheSymbolsEmitted :
    (machine probe [] [.complete false 0]).block.fault = none ∧
      (machine probe [] [.complete false 0]).turns = [.complete false 0] ∧ (0xA1 : Byte).getLsbD 0 = true ∧
      probe.pending = some { sta := true, sto := true, rd := false, wr := some 0xA1, ack := false } := by decide
theorem witness_IackAndCompletionTakeEffectInTheirOrder :
    (stopping.fault = none ∧ (machine stopping [.access 0x3001]).host.proc = none ∧
      (machine stopping [.access 0x3001]).host.program = [.access 0x3001]) ∧
      (stopping.pending = some { sta := false, sto := true, rd := false, wr := none, ack := false } ∧
        ∃ b, stopping.complete true 0 = .next b) ∧
      (busy.pending = some (startWrite 0xA0) ∧ ∃ b, busy.complete true 0 = .next b) ∧
      (machine busy [.access 0x3001] [.host, .complete true 0]).turns = [.host, .complete true 0] ∧
      (machine busy [.access 0x3001] [.complete true 0, .host]).turns = [.complete true 0, .host] :=
  ⟨⟨rfl, rfl, rfl⟩, ⟨rfl, _, rfl⟩, ⟨rfl, _, rfl⟩, rfl, rfl⟩
theorem witness_InvariantIsKeptByEveryStep :
    (machine busy [] [.complete false 0]).block.Inv ∧ (∃ t, step (machine busy [] [.complete false 0]) = .next t) ∧
      (machine ready [.access 0x3090]).block.Inv ∧ ∃ t, step (machine ready [.access 0x3090]) = .next t :=
  ⟨witness_inv_busy, ⟨_, rfl⟩, witness_inv_ready, ⟨_, rfl⟩⟩
theorem witness_PrescaleIsImmutableOnceConfigured :
    (∃ t, step (machine ready [.access 0x2800]) = .next t) ∧ ready.configured = true := ⟨⟨_, rfl⟩, rfl⟩
theorem witness_ConfigurationBitsAreNeverCleared :
    (∃ t, step (machine ready [.access 0x2800]) = .next t) ∧
      (ready.loWritten = true ∧ ready.hiWritten = true ∧ ready.configured = true) ∧
      ∃ t, step (machine { fresh with loWritten := true, hiWritten := true } [.access 0x2880]) = .next t ∧
        fresh.configured = false ∧ t.block.configured = true :=
  ⟨⟨_, rfl⟩, ⟨rfl, rfl, rfl⟩, _, rfl, rfl, rfl⟩
theorem witness_OnlyCompletionsAppendToTheTrace :
    (∃ t, step (machine ready [.access 0x3090]) = .next t) ∧ (machine ready [.access 0x3090]).turns.head? = none :=
  ⟨⟨_, rfl⟩, rfl⟩
theorem witness_OnlyReadCompletionsWriteRxr :
    ∃ t, step (machine (reading false) [] [.complete true 0x3C]) = .next t ∧ t.block.rxr ≠ (reading false).rxr :=
  ⟨_, rfl, by decide⟩
theorem witness_OnlyCompletionsChangeThePhase :
    ∃ t, step (machine busy [] [.complete true 0]) = .next t ∧ t.block.phase ≠ busy.phase := ⟨_, rfl, by decide⟩
theorem witness_TransactionStatusIsDerivedFromTwoBits : heldM.pending = none ∧ heldM.rxack = some false := by decide
theorem witness_PollingNeverStopsAndKeepsTheBlock :
    (polling busy .wait).block.fault = none ∧ (polling busy .wait).turns = [] ∧
      (polling busy .read none [.host, .complete true 0]).turns.head? = some .host ∧
      (polling busy .read).host.proc = some { task := .poll .read 0 .answer, callers := [] } := by decide
theorem witness_PollReturnsAfterTheCompletion :
    busy.fault = none ∧
      (polling busy .wait none [.complete true 0]).host.proc = some { task := .poll .wait 0 .answer, callers := [] } ∧
      busy.pending = some (startWrite 0xA0) ∧ (polling busy .wait).params.pollLimit = none ∧
      (polling busy .wait).params.tipScope = .allCommands ∧ (startWrite 0xA0).wr.isSome = true ∧
      (∃ b, busy.complete true 0 = .next b) ∧
      (polling busy .wait none [.complete true 0]).turns = List.replicate (2 * 0) .host ++ [.complete true 0] ∧
      (polling busy .wait none [.host, .complete true 0]).turns =
        List.replicate (2 * 0 + 1) .host ++ [.complete true 0] ∧
      (polling busy .wait none [.host, .host, .complete true 0]).turns =
        List.replicate (2 * 1) .host ++ [.complete true 0] :=
  ⟨rfl, rfl, rfl, rfl, rfl, rfl, ⟨_, rfl⟩, rfl, rfl, rfl⟩
theorem witness_PollOnAnUnresponsiveSlaveHangs :
    (polling busy .read).block.fault = none ∧ (polling busy .read).turns = [] ∧
      (polling busy .read).host.proc = some { task := .poll .read 0 .answer, callers := [] } ∧
      (polling busy .read).block.pending = some (startWrite 0xA0) ∧ (polling busy .read).params.pollLimit = none ∧
      (polling busy .read).params.tipScope = .allCommands := by decide
theorem witness_PollTimesOutAtItsLimit :
    (polling busy .read (some 1)).block.fault = none ∧ (polling busy .read (some 1)).turns = [] ∧
      (polling busy .read (some 1) [.host]).turns.head? = some .host ∧
      (polling busy .read (some 1)).host.proc = some { task := .poll .read 0 .answer, callers := [] } ∧
      (polling busy .read (some 1)).block.pending = some (startWrite 0xA0) ∧ (startWrite 0xA0).wr.isSome = true ∧
      ((polling busy .read (some 1)).params.pollLimit = some 1 ∧ 1 ≤ 0 + 1) ∧
      ((polling busy .read (some 2)).params.pollLimit = some 2 ∧ 0 + 1 < 2) ∧
      (polling busy .read).params.pollLimit = none := by decide
theorem witness_ConfigureLeavesTheBlockReady :
    fresh.fault = none ∧ fresh.pending = none ∧ fresh.phase = .idle ∧ fresh.configured = false ∧
      (machine fresh [.call (.configure 0x0400)]).turns = [] ∧
      (machine fresh [.call (.configure 0x0400)]).host.proc = none ∧
      (machine fresh [.call (.configure 0x0400)]).host.program = [.call (.configure 0x0400)] := by decide
theorem witness_SecondConfigureStops :
    (ready.fault = none ∧ ready.configured = true ∧ (machine ready [.call (.configure 0x0400)]).turns = [] ∧
      (machine ready [.call (.configure 0x0400)]).host.proc = none) ∧
    busy.pending ≠ none ∧ (heldS.pending = none ∧ heldS.phase ≠ .idle) ∧
      (ready.pending = none ∧ ready.phase = .idle) := by decide
theorem witness_WriteTransactionFollowsItsTable :
    heldM.fault = none ∧ heldM.Ready ∧ heldM.phase ≠ .heldS ∧ [0xDE, 0xAD].length ≤ 254 ∧
      [0xDE, 0xAD].length ≤ params.bufCap.toNat ∧
      [(false, 0), (true, 0), (false, (0 : Byte))].length = [0xDE, 0xAD].length + 1 ∧
      (machine heldM [.call (.write 0x50 [0xDE, 0xAD] true)]
        (writeTurns true (false, 0) [(false, 0), (true, 0), (false, 0)])).turns.length = 14 :=
  ⟨rfl, witness_ready.2.1, by decide, by decide, by decide, rfl, rfl⟩
theorem witness_ReadTransactionReturnsTheBytesOrNoAck :
    ready.fault = none ∧ ready.Ready ∧ ready.phase ≠ .heldS ∧
      [(true, 0x12), (false, (0x34 : Byte))].length = (2 : Byte).toNat ∧ (2 : Byte) ≠ 0 ∧
      (machine ready [.call (.read 0x50 2)]
        (sendTurns (false, 0) ++ readTurns [(true, 0x12), (false, 0x34)])).turns.length = 15 ∧
      (machine ready [.call (.read 0x50 2)] (sendTurns (true, 0) ++ stopTurns (false, 0))).turns.length = 9 :=
  ⟨rfl, witness_ready.1, by decide, rfl, by decide, rfl, rfl⟩
theorem witness_ReadOfNoBytesLeavesTheSlaveDriving :
    ready.fault = none ∧ ready.Ready ∧ ready.phase ≠ .heldS ∧ (false, (0 : Byte)).1 = false ∧
      (machine ready [.call (.read 0x50 0)] (sendTurns (false, 0))).turns = sendTurns (false, 0) :=
  ⟨rfl, witness_ready.1, by decide, rfl, rfl⟩
theorem witness_OversizedWriteIsRefusedBeforeAnyAccess :
    254 < (List.replicate 255 (0 : Byte)).length ∧ (1 : Byte).toNat < [(0 : Byte), 1].length ∧
      (machine ready [.call (.write 0x50 [0, 1] true)]).host.program = [.call (.write 0x50 [0, 1] true)] :=
  ⟨by rw [List.length_replicate]; decide, by decide, rfl⟩
theorem witness_RegionAccessesComposeWriteAndRead :
    (∃ q, Call.begin params (.readRegion 0x50 0x10 2) = .ok q) ∧ Result.written 1 ≠ .written 2 ∧
      Result.written 1 ≠ .timeout := ⟨⟨_, rfl⟩, by decide, by decide⟩
theorem witness_ClientValuesAreAssembledFromTheirBytes :
    7 < 8 ∧ ((bigEndianBytes 0x80000001).getD 0 0).getLsbD 7 = true ∧
      ((bigEndianBytes 0x00800000).getD 1 0).getLsbD 7 = true ∧
      ((bigEndianBytes 0x00000100).getD 2 0).getLsbD 0 = true ∧
      ((bigEndianBytes 0x80000001).getD 3 0).getLsbD 0 = true := by decide

end Sys2Proof.Tests
end

section
/-! SUPPORT. Which agent takes a step, and the obligation of 00_scope.md that a step runs the access it fetches. -/

namespace Sys2Proof.Machine

/-! ## The agent of a step -/

section
variable {s : State} (hf : s.block.fault = none)
include hf

theorem step_of_running : step s = s.agentStep := by
  simp only [step, hf]

theorem step_of_empty_schedule (ht : s.turns = []) : step s = s.hostStep := by
  simp only [step_of_running hf, State.agentStep, ht]

theorem step_of_host_turn {rest : List Turn} (ht : s.turns = .host :: rest) :
    step s = (s.withTurns rest).hostStep := by
  simp only [step_of_running hf, State.agentStep, ht]

theorem step_of_complete_turn {a : Bool} {d : Byte} {rest : List Turn} (ht : s.turns = .complete a d :: rest) :
    step s = (s.withTurns rest).onBlock (s.block.complete a d) := by
  simp only [step_of_running hf, State.agentStep, ht, State.engineStep, State.withTurns_block]

end

/-! ## The host's operations -/

theorem hostStep_of_program {s : State} {op : HostOp} {rest : List HostOp} (hq : s.host.proc = none)
    (hp : s.host.program = op :: rest) : s.hostStep = (s.withProgram rest).runOp op := by
  simp only [State.hostStep, hq, hp]

theorem runOp_access {n : Nat} {i : Instr} (hd : decodeWord n = .ok i) (s : State) :
    s.runOp (.access n) = exec i s := by
  simp only [State.runOp, hd]

@[simp] theorem runOp_memWrite (s : State) (off : Nat) (v : Byte) :
    s.runOp (.memWrite off v) = exec (decodeWrite off v) s := rfl

@[simp] theorem runOp_memRead (s : State) (off : Nat) : s.runOp (.memRead off) = exec (decodeRead off) s := rfl

/-! ## Steps from the host's program -/

section
variable {s : State} {op : HostOp} {rest : List HostOp} (hf : s.block.fault = none) (hq : s.host.proc = none)
  (hp : s.host.program = op :: rest)
include hf hq hp

theorem step_runs_program_of_empty_schedule (ht : s.turns = []) : step s = (s.withProgram rest).runOp op :=
  (step_of_empty_schedule hf ht).trans (hostStep_of_program hq hp)

theorem step_runs_program_of_host_turn {turns : List Turn} (ht : s.turns = .host :: turns) :
    step s = ((s.withTurns turns).withProgram rest).runOp op :=
  (step_of_host_turn hf ht).trans (hostStep_of_program (s := s.withTurns turns) hq hp)

end

/-! ## The fetched word -/

theorem decodeTableWord_eq_some {nbits w : Nat} {i : Instr} :
    decodeTableWord nbits w = some i ↔ decodeWord (w % 2 ^ nbits) = .ok i := by
  unfold decodeTableWord
  cases decodeWord (w % 2 ^ nbits) <;> simp [Except.toOption]

/-- Taking the turn and the operation that `fetching` put in front gives the state back: what `fetching` overwrites is
the procedure, and there was none. -/
theorem fetching_consumed {s : State} (hq : s.host.proc = none) (w : Nat) :
    ((s.fetching w).withTurns s.turns).withProgram s.host.program = s := by
  obtain ⟨params, block, ⟨program, proc, rdata, results⟩, turns, draws⟩ := s
  cases hq
  rfl

theorem step_fetching {s : State} {w : Nat} {i : Instr} (hf : s.block.fault = none) (hq : s.host.proc = none)
    (hd : decodeWord w = .ok i) : step (s.fetching w) = exec i s := by
  rw [step_runs_program_of_host_turn (s := s.fetching w) hf rfl rfl rfl, fetching_consumed hq, runOp_access hd]

/-- Settles O7: a step is the step of the agent whose turn it is, and the host's is its next operation, which an access
word names by its decoding. -/
theorem stepRunsTheDecodedAccess : Obligations.StepRunsTheDecodedAccess := by
  unfold Obligations.StepRunsTheDecodedAccess
  refine ⟨?_, ?_, ?_, ?_⟩
  · intro s nbits w i hf hq hd
    exact step_fetching hf hq (decodeTableWord_eq_some.mp hd)
  · intro s n i rest turns hf hq hp hd
    constructor
    · intro ht
      rw [step_runs_program_of_empty_schedule hf hq hp ht, runOp_access hd]
    · intro ht
      rw [step_runs_program_of_host_turn hf hq hp ht, runOp_access hd]
  · intro s off v rest hf hq ht
    constructor
    · intro hp
      rw [step_runs_program_of_empty_schedule hf hq hp ht, runOp_memWrite]
    · intro hp
      rw [step_runs_program_of_empty_schedule hf hq hp ht, runOp_memRead]
  · intro s a d rest hf ht
    exact step_of_complete_turn hf ht

end Sys2Proof.Machine
end

section
/-! SUPPORT. What one step of the machine does to the fields of the block (10_state.md): which fields only a completion
changes, which it leaves alone, and how the configuration moves. -/

namespace Sys2Proof.Machine

/-! ## The fields of the bus -/

/-- The fields that record what happened on the bus, which no access and no delay changes (10_state.md R27, R31, R32,
R37), and the fault mark. -/
structure Block.SameBus (b t : Block) : Prop where
  phase : t.phase = b.phase
  rxr : t.rxr = b.rxr
  rxack : t.rxack = b.rxack
  trace : t.trace = b.trace
  fault : t.fault = b.fault

theorem AccessEffect.sameBus {b t : Block} (h : AccessEffect b t) : b.SameBus t := by
  cases h <;> exact ⟨rfl, rfl, rfl, rfl, rfl⟩

theorem Block.sameBus_delay (b : Block) (n : Nat) : b.SameBus (b.delay n) := ⟨rfl, rfl, rfl, rfl, rfl⟩

/-! ## The completion of a pending command -/

section
variable {p : Command} {a : Bool} {d : Byte} {b t : Block} (hp : b.pending = some p)
  (h : b.complete a d = .next t)
include hp h

theorem Block.complete_pending_next :
    t = if p.sto then (b.beforeStop p a d).stopPart.finish else (b.beforeStop p a d).finish := by
  obtain ⟨hn, -⟩ | ⟨q, hq, ⟨hs, rfl⟩ | ⟨hs, -, rfl⟩⟩ := Block.complete_next h
  · simp [hp] at hn
  · obtain rfl : p = q := by simpa [hp] using hq
    simp [hs]
  · obtain rfl : p = q := by simpa [hp] using hq
    simp [hs]

theorem Block.complete_pending_cleared : t.pending = none := by
  rw [Block.complete_pending_next hp h]
  split <;> rfl

theorem Block.complete_rxr : t.rxr = if p.rd then d else b.rxr := by
  rw [Block.complete_pending_next hp h, ← Block.beforeStop_rxr p a d b]
  split <;> rfl

theorem Block.complete_trace : t.trace = b.trace ++ p.symbols a d ++ if p.sto then [.stop] else [] := by
  rw [Block.complete_pending_next hp h, ← Block.beforeStop_trace p a d b]
  split <;> simp

end

/-! ## The fields of the configuration -/

/-- The fields of enabling and configuration (10_state.md R22 to R25, R34), which no completion changes. -/
structure Block.SameConfiguration (b t : Block) : Prop where
  prescale : t.prescale = b.prescale
  en : t.en = b.en
  loWritten : t.loWritten = b.loWritten
  hiWritten : t.hiWritten = b.hiWritten
  configured : t.configured = b.configured

theorem Block.sameConfiguration_delay (b : Block) (n : Nat) : b.SameConfiguration (b.delay n) :=
  ⟨rfl, rfl, rfl, rfl, rfl⟩

/-- A completion leaves alone the configuration, the settle count and the fault mark. -/
theorem Block.complete_frame {a : Bool} {d : Byte} {b t : Block} (h : b.complete a d = .next t) :
    b.SameConfiguration t ∧ t.settleUs = b.settleUs ∧ t.fault = b.fault := by
  obtain ⟨-, rfl⟩ | ⟨p, -, hcase⟩ := Block.complete_next h
  · exact ⟨⟨rfl, rfl, rfl, rfl, rfl⟩, rfl, rfl⟩
  · obtain ⟨hlo, hhi, hen, -, -, -, hlw, hhw, hcf, hsu, hft⟩ := Block.beforeStop_frame p a d b
    have hps : (b.beforeStop p a d).prescale = b.prescale := by simp only [Block.prescale, hlo, hhi]
    obtain ⟨-, rfl⟩ | ⟨-, -, rfl⟩ := hcase
    · exact ⟨⟨hps, hen, hlw, hhw, hcf⟩, hsu, hft⟩
    · exact ⟨⟨hps, hen, hlw, hhw, hcf⟩, hsu, hft⟩

/-- How a step may move the configuration (10_state.md R24, R34). -/
structure Block.MayConfigure (b t : Block) : Prop where
  prescale : b.configured = true → t.prescale = b.prescale
  loWritten : b.loWritten = true → t.loWritten = true
  hiWritten : b.hiWritten = true → t.hiWritten = true
  configured : b.configured = true → t.configured = true
  enabling : b.configured = false → t.configured = true →
    b.en = false ∧ t.en = true ∧ b.loWritten = true ∧ b.hiWritten = true

theorem Block.SameConfiguration.mayConfigure {b t : Block} (h : b.SameConfiguration t) : b.MayConfigure t where
  prescale _ := h.prescale
  loWritten hl := h.loWritten.trans hl
  hiWritten hh := h.hiWritten.trans hh
  configured hc := h.configured.trans hc
  enabling hb ht := by simp [h.configured, hb] at ht

/-- Only a prescale write and enabling move the configuration: the first asks for a block that is not configured, the
second sets `configured` from the two written marks. -/
theorem AccessEffect.mayConfigure {b t : Block} (h : AccessEffect b t) : b.MayConfigure t := by
  cases h with
  | prescaleLow v he hc => constructor <;> simp [hc]
  | prescaleHigh v he hc => constructor <;> simp [hc]
  | enable hp he => constructor <;> simp_all [Block.prescale]
  | disable hp hi => constructor <;> simp_all [Block.prescale]
  | none | transmit | iack | accept =>
    exact Block.SameConfiguration.mayConfigure ⟨rfl, rfl, rfl, rfl, rfl⟩

/-! ## Steps -/

section
variable {s t : State} (h : step s = .next t)
include h

/-- A step leaves the bus as it was, unless it is the completion of a pending command. -/
theorem step_sameBus_or_completes :
    s.block.SameBus t.block ∨ ∃ a d p, s.turns.head? = some (.complete a d) ∧ s.block.pending = some p ∧
      s.block.complete a d = .next t.block := by
  obtain ⟨-, -, he | ⟨n, hn⟩ | ⟨a, d, ht, hc⟩⟩ := step_next h
  · exact .inl he.sameBus
  · exact .inl (hn ▸ s.block.sameBus_delay n)
  · obtain ⟨-, hb⟩ | ⟨p, hp, -⟩ := Block.complete_next hc
    · exact .inl (hb ▸ ⟨rfl, rfl, rfl, rfl, rfl⟩)
    · exact .inr ⟨a, d, p, ht, hp, hc⟩

theorem step_mayConfigure : s.block.MayConfigure t.block := by
  obtain ⟨-, -, he | ⟨n, hn⟩ | ⟨a, d, -, hc⟩⟩ := step_next h
  · exact he.mayConfigure
  · exact hn ▸ (s.block.sameConfiguration_delay n).mayConfigure
  · obtain ⟨hsame, -⟩ := Block.complete_frame hc
    exact hsame.mayConfigure

theorem step_fault_kept : t.block.fault = s.block.fault := by
  obtain hb | ⟨a, d, p, -, -, hc⟩ := step_sameBus_or_completes h
  · exact hb.fault
  · obtain ⟨-, -, hf⟩ := Block.complete_frame hc
    exact hf

end

end Sys2Proof.Machine
end

section
/-! SUPPORT. The invariant of the block holds at reset, and every step keeps it. -/

namespace Sys2Proof.Machine

/-! ## The phase a trace leaves after more symbols -/

@[simp] theorem phaseOfTrace_append_stop (l : List Symbol) : phaseOfTrace (l ++ [.stop]) = some .idle := by
  simp [phaseOfTrace, phaseOfReversed]

theorem phaseOfTrace_append_read (l m : List Symbol) (a : Bool) :
    phaseOfTrace (l ++ (m ++ [.mack a])) = some (if a then .heldM else .heldS) := by
  simp [phaseOfTrace, phaseOfReversed]

theorem phaseOfTrace_append_address (l : List Symbol) (byte : Byte) (a : Bool) :
    phaseOfTrace (l ++ (.start :: (sentBits byte ++ [.sack a]))) =
      some (if !a && byte.getLsbD 0 then .heldS else .heldM) := by
  simp [phaseOfTrace, phaseOfReversed, sentBits, bitsMsbFirst]

/-- No completed command ends with a START, so a byte sent without one after it is no address byte. -/
theorem phaseOfTrace_append_data {l : List Symbol} {ph : Phase} (hl : phaseOfTrace l = some ph) (byte : Byte)
    (a : Bool) : phaseOfTrace (l ++ (sentBits byte ++ [.sack a])) = some .heldM := by
  -- the side condition of the last equation of `phaseOfReversed` for a byte sent
  have hstart : ∀ m, l.reverse ≠ .start :: m := by
    intro m hm
    simp [phaseOfTrace, hm, phaseOfReversed] at hl
  simp only [phaseOfTrace, sentBits, bitsMsbFirst, List.reverse_append, List.map_cons, List.map_nil,
    List.reverse_cons, List.reverse_nil, List.nil_append, List.cons_append, phaseOfReversed]

/-! ## Admitted commands -/

/-- The admitted commands without a STOP: START with WRITE, WRITE, and READ (41_commands.md R128 to R130). -/
theorem Command.Admitted.without_stop {p : Command} (h : p.Admitted) (hs : p.sto = false) :
    (∃ byte, p = ⟨true, false, false, some byte, false⟩) ∨ (∃ byte, p = ⟨false, false, false, some byte, false⟩) ∨
      p = ⟨false, false, true, none, false⟩ := by
  obtain ⟨sta, sto, rd, wr, ack⟩ := p
  cases wr <;> simp_all [Command.Admitted, Command.bits, CommandBits.admitted, CommandBits.startWrite,
    CommandBits.write, CommandBits.read, CommandBits.readNackStop, CommandBits.stop, CommandBits.startWriteStop,
    CommandBits.writeStop]

/-- The command an acceptance makes pending has the bits that were written. -/
theorem Command.bits_of_accepted (c : CommandBits) (b : Block) :
    Command.bits ⟨c.sta, c.sto, c.rd, if c.wr then some b.txr else none, c.ack⟩ = c := by
  obtain ⟨sta, sto, rd, wr, ack⟩ := c
  cases wr <;> rfl

/-- Before its STOP, or without one, an admitted command leaves the phase of the trace it leaves. -/
theorem Block.beforeStop_traced {b : Block} {p : Command} (hp : p.Admitted) (hs : p.sto = false)
    (ht : phaseOfTrace b.trace = some b.phase) (a : Bool) (d : Byte) :
    phaseOfTrace (b.beforeStop p a d).trace = some (b.beforeStop p a d).phase := by
  rw [Block.beforeStop_trace]
  obtain ⟨byte, rfl⟩ | ⟨byte, rfl⟩ | rfl := hp.without_stop hs
  · exact phaseOfTrace_append_address b.trace byte a
  · exact phaseOfTrace_append_data ht byte a
  · exact phaseOfTrace_append_read b.trace (receivedBits d) false

/-- A completion leaves the phase of the trace it leaves. -/
theorem Block.complete_traced {b t : Block} {p : Command} {a : Bool} {d : Byte} (hp : b.pending = some p)
    (h : b.complete a d = .next t) (hadm : p.Admitted) (ht : phaseOfTrace b.trace = some b.phase) :
    phaseOfTrace t.trace = some t.phase := by
  rw [Block.complete_pending_next hp h]
  cases hs : p.sto
  · exact Block.beforeStop_traced hadm hs ht a d
  · exact phaseOfTrace_append_stop (b.beforeStop p a d).trace

/-! ## The invariant -/

theorem Block.settled_delay {b : Block} (n : Nat) (h : b.settled = true) : (b.delay n).settled = true := by
  obtain ⟨he, hs⟩ : b.en = true ∧ Config.tSettleUs ≤ b.settleUs := by simpa [Block.settled] using h
  have : Config.tSettleUs ≤ b.settleUs + n := by omega
  simp [Block.settled, he, this]

namespace Block.Inv

variable {b t : Block}

theorem idle_of_disabled (h : b.Inv) (he : b.en = false) : b.phase = .idle := by
  by_contra hne
  obtain ⟨-, hs⟩ := h.held hne
  simp [Block.settled, he] at hs

theorem not_pending_of_disabled (h : b.Inv) (he : b.en = false) : b.pending = none := by
  by_contra hne
  obtain ⟨p, hp⟩ := Option.ne_none_iff_exists'.mp hne
  obtain ⟨-, hs, -⟩ := h.pending p hp
  simp [Block.settled, he] at hs

/-- A free bus and no pending command leave the invariant nothing to ask of the enabling. -/
theorem of_quiet (hw : t.configured = true → t.loWritten = true ∧ t.hiWritten = true) (hi : t.phase = .idle)
    (hp : t.pending = none) (ht : phaseOfTrace t.trace = some .idle) : t.Inv where
  written := hw
  held hne := absurd hi hne
  pending p hq := by simp [hp] at hq
  traced := by rw [hi, ht]

theorem of_accessEffect (h : b.Inv) (he : AccessEffect b t) : t.Inv := by
  cases he with
  | none => exact h
  | prescaleLow v he hc =>
    exact of_quiet (by simp [hc]) (h.idle_of_disabled he) (h.not_pending_of_disabled he)
      (h.idle_of_disabled he ▸ h.traced)
  | prescaleHigh v he hc =>
    exact of_quiet (by simp [hc]) (h.idle_of_disabled he) (h.not_pending_of_disabled he)
      (h.idle_of_disabled he ▸ h.traced)
  | disable hp hi => exact of_quiet h.written hi hp (hi ▸ h.traced)
  | enable hp he =>
    have hw : b.enable.configured = true → b.loWritten = true ∧ b.hiWritten = true := by
      simpa [or_imp] using h.written
    exact of_quiet hw (h.idle_of_disabled he) hp (h.idle_of_disabled he ▸ h.traced)
  | transmit | iack => exact ⟨h.written, h.held, h.pending, h.traced⟩
  | accept c i hc hp he hf hs hl =>
    refine ⟨h.written, h.held, fun p hq => ?_, h.traced⟩
    obtain rfl := Option.some.inj hq
    rw [Command.Admitted, Command.bits_of_accepted]
    exact ⟨hf, by simp [Block.settled, he, hs], hc, hl⟩

theorem delay (h : b.Inv) (n : Nat) : (b.delay n).Inv where
  written := h.written
  held hne := (h.held hne).imp_right (Block.settled_delay n)
  pending p hp := by
    obtain ⟨hc, hs, hok⟩ := h.pending p hp
    exact ⟨hc, Block.settled_delay n hs, hok⟩
  traced := h.traced

/-- A completion ends a command that passed every check: its block was configured and settled and still is. -/
theorem complete (h : b.Inv) {a : Bool} {d : Byte} (hc : b.complete a d = .next t) : t.Inv := by
  obtain ⟨-, rfl⟩ | ⟨p, hp, -⟩ := Block.complete_next hc
  · exact h
  obtain ⟨hconf, hset, hadm, -⟩ := h.pending p hp
  obtain ⟨hsame, hus, -⟩ := Block.complete_frame hc
  refine ⟨?_, fun _ => ⟨hsame.configured.trans hconf, ?_⟩, ?_, ?_⟩
  · rw [hsame.configured, hsame.loWritten, hsame.hiWritten]
    exact h.written
  · rwa [Block.settled, hsame.en, hus]
  · simp [Block.complete_pending_cleared hp hc]
  · exact Block.complete_traced hp hc hadm h.traced

end Block.Inv

/-- Settles O40: at reset nothing is configured, held or pending, and the trace is empty. -/
theorem invariantHoldsAtReset : Obligations.InvariantHoldsAtReset :=
  .of_quiet (by simp [State.reset, Block.reset]) rfl rfl rfl

/-- Settles O41: each of the three things a step can do to the block keeps the invariant. -/
theorem invariantIsKeptByEveryStep : Obligations.InvariantIsKeptByEveryStep := by
  intro s t hs h
  obtain ⟨-, -, he | ⟨n, hn⟩ | ⟨a, d, -, hc⟩⟩ := step_next h
  · exact hs.of_accessEffect he
  · exact hn ▸ hs.delay n
  · exact hs.complete hc

end Sys2Proof.Machine
end

section
/-! SUPPORT. The obligations of 10_state.md about single fields, from what one step does to the block. -/

namespace Sys2Proof.Machine

/-- Settles O39. -/
theorem resetLeavesTheDecidedValues : Obligations.ResetLeavesTheDecidedValues :=
  ⟨rfl, rfl, rfl, rfl, rfl, rfl, rfl, rfl, rfl, rfl, rfl, rfl, fun _ => rfl, rfl⟩

/-- Settles O10: a stopped machine takes no step, and no step sets the mark. -/
theorem stepKeepsParametersAndNoFaultMark : Obligations.StepKeepsParametersAndNoFaultMark := by
  intro s t h
  obtain ⟨hf, hp, -⟩ := step_next h
  exact ⟨hp, hf, (step_fault_kept h).trans hf⟩

/-- Settles O42: a prescale write asks for a block that is not configured. -/
theorem prescaleIsImmutableOnceConfigured : Obligations.PrescaleIsImmutableOnceConfigured := by
  intro s t h hc
  have hm := step_mayConfigure h
  exact ⟨hm.prescale hc, hm.configured hc⟩

/-- Settles O43. -/
theorem configurationBitsAreNeverCleared : Obligations.ConfigurationBitsAreNeverCleared := by
  intro s t h
  have hm := step_mayConfigure h
  exact ⟨hm.loWritten, hm.hiWritten, hm.configured, hm.enabling⟩

/-- Settles O44: a completion appends the symbols of its command, and every other step leaves the trace. -/
theorem onlyCompletionsAppendToTheTrace : Obligations.OnlyCompletionsAppendToTheTrace := by
  intro s t h
  obtain hb | ⟨a, d, p, ht, hp, hc⟩ := step_sameBus_or_completes h
  · exact ⟨⟨[], by simp [hb.trace]⟩, fun _ => hb.trace⟩
  · exact ⟨⟨_, (Block.complete_trace hp hc).trans (List.append_assoc ..)⟩, fun hno => absurd ht (hno a d)⟩

/-- Settles O45: the completion that changes RXR is that of a READ, which stores the slave's byte. -/
theorem onlyReadCompletionsWriteRxr : Obligations.OnlyReadCompletionsWriteRxr := by
  intro s t h hne
  obtain hb | ⟨a, d, p, ht, hp, hc⟩ := step_sameBus_or_completes h
  · exact absurd hb.rxr hne
  · have hrxr := Block.complete_rxr hp hc
    cases hrd : p.rd
    · exact absurd (by simpa [hrd] using hrxr) hne
    · obtain rfl : t.block.rxr = d := by simpa [hrd] using hrxr
      exact ⟨a, p, ht, hp, hrd⟩

/-- Settles O46: the step that changes the phase completes a command, which is pending no more. -/
theorem onlyCompletionsChangeThePhase : Obligations.OnlyCompletionsChangeThePhase := by
  intro s t h hne
  obtain hb | ⟨a, d, p, ht, hp, hc⟩ := step_sameBus_or_completes h
  · exact absurd hb.phase hne
  · exact ⟨a, d, p, ht, hp, Block.complete_pending_cleared hp hc⟩

end Sys2Proof.Machine
end

section
/-! SUPPORT. What an accepted read access can do, and the obligation of 20_memory.md that it leaves the block alone. -/

namespace Sys2Proof.Machine

/-- An accepted read answers a byte, drawn or not: each register's row does, and an unmapped offset is refused. -/
theorem exec_decodeRead_next {off : Nat} {s t : State} (h : exec (decodeRead off) s = .next t) :
    (∃ x, t = s.answer x) ∨ ∃ x, t = s.answerDrawn x := by
  have drawn (x : Byte) (hx : Host.Outcome.next (s.answerDrawn x) = (.next t : Out)) :
      (∃ x, t = s.answer x) ∨ ∃ x, t = s.answerDrawn x := .inr ⟨x, (Host.Outcome.next.inj hx).symm⟩
  unfold decodeRead at h
  split_ifs at h
  · exact drawn _ h -- `RD_PRERLO`
  · exact drawn _ h -- `RD_PRERHI`
  · exact drawn _ h -- `RD_CTR`
  · -- `RD_RXR`
    simp only [exec, execRdRxr] at h
    split at h
    · exact drawn _ h
    · exact .inl ⟨_, (Host.Outcome.next.inj h).symm⟩
  · exact drawn _ h -- `RD_SR`
  · exact absurd h (by simp [exec, execAccUnmapped])

/-- Settles O20: an answer changes only the byte returned to the host and the count of draws. -/
theorem readsChangeNoStateOfTheBlock : Obligations.ReadsChangeNoStateOfTheBlock := by
  intro off s t h
  obtain ⟨x, rfl⟩ | ⟨x, rfl⟩ := exec_decodeRead_next h
  · exact ⟨rfl, rfl, rfl, rfl, rfl, rfl⟩
  · exact ⟨rfl, rfl, rfl, rfl, rfl, rfl⟩

end Sys2Proof.Machine
end

section
/-! SUPPORT. The decoder by cases: what it gives on the forms of the opcode table, what its result encodes, and the
obligations of 30_encoding.md that decoder and encoder are inverse. -/

namespace Sys2Proof

/-! ## Bytes of the command register, their IACK bit apart -/

/-- A byte is its bits 7:1 and its IACK bit. -/
theorem masked_or_iack (c : Byte) :
    c &&& 0xFE ||| commandByte false false false false false (c.getLsbD 0) = c := by
  revert c; decide

theorem commandByte_or_iack (sta sto rd wr ack i : Bool) :
    commandByte sta sto rd wr ack false ||| commandByte false false false false false i =
      commandByte sta sto rd wr ack i := by
  revert sta sto rd wr ack i; decide

/-- A byte that agrees with a named form in bits 7:1 is that form, with the byte's own bit 0 as IACK. -/
theorem eq_commandByte_of_masked {c : Byte} (sta sto rd wr ack : Bool)
    (h : c &&& 0xFE = commandByte sta sto rd wr ack false) :
    c = commandByte sta sto rd wr ack (c.getLsbD 0) := by
  rw [← commandByte_or_iack, ← h, masked_or_iack]

theorem masked_and_reserved (c : Byte) : (c &&& 0xFE) &&& 0x06 = c &&& 0x06 := BitVec.and_assoc c 0xFE 0x06

theorem isNamedCommand_eq_true {c : Byte} : isNamedCommand c = true ↔
    c &&& 0xFE = 0x00 ∨ c &&& 0xFE = 0x90 ∨ c &&& 0xFE = 0x10 ∨ c &&& 0xFE = 0x20 ∨ c &&& 0xFE = 0x68 ∨
      c &&& 0xFE = 0x40 ∨ c &&& 0xFE = 0xD0 ∨ c &&& 0xFE = 0x50 ∨ c &&& 0xFE = 0x28 ∨ c &&& 0xFE = 0x60 := by
  simp only [isNamedCommand, List.contains_iff_mem, List.mem_cons, List.not_mem_nil, or_false]

/-- The named command bytes, each with its IACK bit `i`: rows 7 and 8, 9 to 15, 17 and 18 of 30_encoding.md R82. -/
theorem namedCommand_forms {c : Byte} (h : isNamedCommand c = true) : ∃ i,
    c = commandByte false false false false false i ∨ c = commandByte true false false true false i ∨
    c = commandByte false false false true false i ∨ c = commandByte false false true false false i ∨
    c = commandByte false true true false true i ∨ c = commandByte false true false false false i ∨
    c = commandByte true true false true false i ∨ c = commandByte false true false true false i ∨
    c = commandByte false false true false true i ∨ c = commandByte false true true false false i :=
  ⟨c.getLsbD 0, (isNamedCommand_eq_true.mp h).imp
      (eq_commandByte_of_masked false false false false false) <|
    .imp (eq_commandByte_of_masked true false false true false) <|
    .imp (eq_commandByte_of_masked false false false true false) <|
    .imp (eq_commandByte_of_masked false false true false false) <|
    .imp (eq_commandByte_of_masked false true true false true) <|
    .imp (eq_commandByte_of_masked false true false false false) <|
    .imp (eq_commandByte_of_masked true true false true false) <|
    .imp (eq_commandByte_of_masked false true false true false) <|
    .imp (eq_commandByte_of_masked false false true false true)
      (eq_commandByte_of_masked false true true false false)⟩

/-- No named form sets a reserved bit. -/
theorem reserved_clear_of_isNamedCommand {c : Byte} (h : isNamedCommand c = true) : c &&& 0x06 = 0 := by
  rw [← masked_and_reserved]
  rcases isNamedCommand_eq_true.mp h with h | h | h | h | h | h | h | h | h | h <;> rw [h] <;> rfl

theorem not_masked_of_unnamed {c : Byte} (h : isNamedCommand c = false) :
    (c ≠ 0x00 ∧ c ≠ 0x01) ∧ c &&& 0xFE ≠ 0x90 ∧ c &&& 0xFE ≠ 0x10 ∧ c &&& 0xFE ≠ 0x20 ∧ c &&& 0xFE ≠ 0x68 ∧
      c &&& 0xFE ≠ 0x40 ∧ c &&& 0xFE ≠ 0xD0 ∧ c &&& 0xFE ≠ 0x50 ∧ c &&& 0xFE ≠ 0x28 ∧ c &&& 0xFE ≠ 0x60 := by
  rw [← Bool.not_eq_true, isNamedCommand_eq_true] at h
  simp only [not_or] at h
  obtain ⟨clear, transfer⟩ := h
  exact ⟨⟨by rintro rfl; exact clear rfl, by rintro rfl; exact clear rfl⟩, transfer⟩

/-! ## The decoder on the forms of each register -/

theorem decodeControl_of_reserved {v : Byte} (h : v &&& 0x7F ≠ 0) : decodeControl v = .wrCtrReserved v := by
  have hd : v ≠ 0x00 := by rintro rfl; exact h rfl
  have he : v ≠ 0x80 := by rintro rfl; exact h rfl
  simp only [decodeControl, hd, he, if_false]

theorem decodeCommand_of_reserved {c : Byte} (h : c &&& 0x06 ≠ 0) : decodeCommand c = .cmdReservedBits c := by
  have unnamed := not_masked_of_unnamed (Bool.eq_false_of_not_eq_true (mt reserved_clear_of_isNamedCommand h))
  simp only [decodeCommand, unnamed, h, if_false, ne_eq, not_false_eq_true, if_true]

theorem decodeCommand_of_illegal {c : Byte} (h : c &&& 0x06 = 0) (hn : isNamedCommand c = false) :
    decodeCommand c = .cmdIllegal c := by
  simp only [decodeCommand, not_masked_of_unnamed hn, h, if_false, ne_eq, not_true_eq_false]

/-- A command byte sets a reserved bit (row 16), or has no meaning (row 19), or is one of the named forms. -/
theorem command_cases (c : Byte) :
    c &&& 0x06 ≠ 0 ∨ (c &&& 0x06 = 0 ∧ isNamedCommand c = false) ∨ isNamedCommand c = true := by
  by_cases reserved : c &&& 0x06 = 0
  · cases named : isNamedCommand c
    · exact .inr (.inl ⟨reserved, rfl⟩)
    · exact .inr (.inr rfl)
  · exact .inl reserved

theorem decodeWrite_of_unmapped {off : Nat} (h : isMapped off = false) (d : Byte) :
    decodeWrite off d = .accUnmapped true off d := by
  simp only [isMapped, Bool.or_eq_false_iff, beq_eq_false_iff_ne] at h
  simp only [decodeWrite, h, if_false]

theorem decodeRead_of_unmapped {off : Nat} (h : isMapped off = false) :
    decodeRead off = .accUnmapped false off 0 := by
  simp only [isMapped, Bool.or_eq_false_iff, beq_eq_false_iff_ne] at h
  simp only [decodeRead, h, if_false]

/-! ## Offsets and access words -/

/-- An offset is one of the five of the register window (20_memory.md R50), or unmapped. -/
theorem offset_cases (off : Offset) :
    off = 0b00000 ∨ off = 0b00100 ∨ off = 0b01000 ∨ off = 0b01100 ∨ off = 0b10000 ∨ isMapped off.toNat = false := by
  revert off; decide

/-- What a word that decodes is: a write at its offset, or a read whose `D` is 0. -/
theorem decodeAccess_ok {word : AccessWord} {i : Instr} (h : decodeAccess word = .ok i) :
    (∃ off d, word = accessWord true off d ∧ i = decodeWrite off.toNat d) ∨
      ∃ off, word = accessWord false off 0 ∧ i = decodeRead off.toNat := by
  have fields := accessWord_fields word
  unfold decodeAccess at h
  split_ifs at h with hw hd
  · rw [hw] at fields
    exact .inl ⟨_, _, fields.symm, (Except.ok.inj h).symm⟩
  · rw [Bool.eq_false_of_not_eq_true hw, hd] at fields
    exact .inr ⟨_, fields.symm, (Except.ok.inj h).symm⟩

theorem decodeWord_ok {n : Nat} {i : Instr} (h : decodeWord n = .ok i) :
    ∃ word : AccessWord, n = word.toNat ∧ decodeAccess word = .ok i := by
  unfold decodeWord at h
  split_ifs at h with hn
  exact ⟨BitVec.ofNat 14 n, (Nat.mod_eq_of_lt hn).symm, h⟩

/-! ## What the decoded instruction encodes -/

theorem encode_decodeControl (v : Byte) : encode (decodeControl v) = accessWord true 0b01000 v := by
  unfold decodeControl
  split_ifs with hd he
  · rw [hd]; rfl
  · rw [he]; rfl
  · rfl

theorem encode_decodeCommand (c : Byte) : encode (decodeCommand c) = accessWord true 0b10000 c := by
  rcases command_cases c with reserved | ⟨unreserved, unnamed⟩ | named
  · rw [decodeCommand_of_reserved reserved]; rfl
  · rw [decodeCommand_of_illegal unreserved unnamed]; rfl
  · obtain ⟨i, form⟩ := namedCommand_forms named
    rcases form with rfl | rfl | rfl | rfl | rfl | rfl | rfl | rfl | rfl | rfl <;> cases i <;> rfl

theorem encode_decodeWrite (off : Offset) (d : Byte) : encode (decodeWrite off.toNat d) = accessWord true off d := by
  rcases offset_cases off with rfl | rfl | rfl | rfl | rfl | unmapped
  · rfl
  · rfl
  · exact encode_decodeControl d
  · rfl
  · exact encode_decodeCommand d
  · rw [decodeWrite_of_unmapped unmapped, encode, BitVec.ofNat_toNat, BitVec.setWidth_eq]

theorem encode_decodeRead (off : Offset) : encode (decodeRead off.toNat) = accessWord false off 0 := by
  rcases offset_cases off with rfl | rfl | rfl | rfl | rfl | unmapped
  case inr.inr.inr.inr.inr => rw [decodeRead_of_unmapped unmapped, encode, BitVec.ofNat_toNat, BitVec.setWidth_eq]
  all_goals rfl

/-! ## The decoded instruction is well formed -/

/-- Any control byte but 0x00 and 0x80 sets a reserved bit. -/
theorem control_reserved {v : Byte} (hd : v ≠ 0x00) (he : v ≠ 0x80) : v &&& 0x7F ≠ 0 := by
  revert v; decide

theorem decodeControl_wellFormed (v : Byte) : (decodeControl v).WellFormed = true := by
  unfold decodeControl
  split_ifs with hd he
  · rfl
  · rfl
  · exact bne_iff_ne.mpr (control_reserved hd he)

theorem decodeCommand_wellFormed (c : Byte) : (decodeCommand c).WellFormed = true := by
  rcases command_cases c with reserved | ⟨unreserved, unnamed⟩ | named
  · rw [decodeCommand_of_reserved reserved]
    exact bne_iff_ne.mpr reserved
  · rw [decodeCommand_of_illegal unreserved unnamed]
    simp only [Instr.WellFormed, unreserved, unnamed, beq_self_eq_true, Bool.not_false, Bool.and_self]
  · obtain ⟨i, form⟩ := namedCommand_forms named
    rcases form with rfl | rfl | rfl | rfl | rfl | rfl | rfl | rfl | rfl | rfl <;> cases i <;> rfl

theorem decodeWrite_wellFormed (off : Offset) (d : Byte) : (decodeWrite off.toNat d).WellFormed = true := by
  rcases offset_cases off with rfl | rfl | rfl | rfl | rfl | unmapped
  · rfl
  · rfl
  · exact decodeControl_wellFormed d
  · rfl
  · exact decodeCommand_wellFormed d
  · rw [decodeWrite_of_unmapped unmapped]
    simp only [Instr.WellFormed, off.isLt, unmapped, decide_true, Bool.not_false, Bool.true_or, Bool.and_self]

theorem decodeRead_wellFormed (off : Offset) : (decodeRead off.toNat).WellFormed = true := by
  rcases offset_cases off with rfl | rfl | rfl | rfl | rfl | unmapped
  case inr.inr.inr.inr.inr =>
    rw [decodeRead_of_unmapped unmapped]
    simp only [Instr.WellFormed, off.isLt, unmapped, decide_true, Bool.not_false, beq_self_eq_true, Bool.or_true,
      Bool.and_self]
  all_goals rfl

/-! ## Encoder and decoder are inverse -/

theorem decodeAccess_accUnmapped {w : Bool} {off : Nat} {d : Byte} (h : (Instr.accUnmapped w off d).WellFormed = true) :
    decodeAccess (encode (.accUnmapped w off d)) = .ok (.accUnmapped w off d) := by
  simp only [Instr.WellFormed, Bool.and_eq_true, decide_eq_true_eq, Bool.not_eq_true', Bool.or_eq_true, beq_iff_eq] at h
  obtain ⟨⟨hoff, unmapped⟩, hd⟩ := h
  have fits : (BitVec.ofNat 5 off).toNat = off := Nat.mod_eq_of_lt hoff
  cases w
  case true => rw [encode, decodeAccess_write, fits, decodeWrite_of_unmapped unmapped]
  case false =>
    obtain rfl := hd.resolve_left Bool.false_ne_true
    rw [encode, decodeAccess_read, fits, decodeRead_of_unmapped unmapped]

theorem decodeAccess_encode {i : Instr} (h : i.WellFormed = true) : decodeAccess (encode i) = .ok i := by
  cases i
  case wrPrerlo v | wrPrerhi v | wrTxr v => exact decodeAccess_write _ v
  case wrCtrReserved v =>
    exact (decodeAccess_write 0b01000 v).trans (congrArg _ (decodeControl_of_reserved (bne_iff_ne.mp h)))
  case cmdReservedBits c =>
    exact (decodeAccess_write 0b10000 c).trans (congrArg _ (decodeCommand_of_reserved (bne_iff_ne.mp h)))
  case cmdIllegal c =>
    simp only [Instr.WellFormed, Bool.and_eq_true, beq_iff_eq, Bool.not_eq_true'] at h
    obtain ⟨unreserved, unnamed⟩ := h
    exact (decodeAccess_write 0b10000 c).trans (congrArg _ (decodeCommand_of_illegal unreserved unnamed))
  case accUnmapped w off d => exact decodeAccess_accUnmapped h
  case cmdStartWrite b | cmdWrite b | cmdRead b | cmdReadNackStop b | cmdStop b | cmdStartWriteStop b | cmdWriteStop b |
    cmdUnfoldedStop b | cmdAckedReadStop b => cases b <;> rfl
  all_goals rfl

/-- Settles O1: the word's fields are those its instruction was packed from, and each form decodes to its own row. -/
theorem decodeOfEncodeIsTheInstruction : Obligations.DecodeOfEncodeIsTheInstruction := by
  intro i h
  rw [decodeWord_toNat, decodeAccess_encode h]

/-- Settles O2: a word that decodes is a write or a read of `D` 0, and the decoder's result at an offset encodes it. -/
theorem encodeOfDecodeIsTheWord : Obligations.EncodeOfDecodeIsTheWord := by
  intro n i h
  obtain ⟨word, rfl, hw⟩ := decodeWord_ok h
  obtain ⟨off, d, rfl, rfl⟩ | ⟨off, rfl, rfl⟩ := decodeAccess_ok hw
  · exact ⟨congrArg _ (encode_decodeWrite off d), decodeWrite_wellFormed off d⟩
  · exact ⟨congrArg _ (encode_decodeRead off), decodeRead_wellFormed off⟩

end Sys2Proof
end

section
/-! SUPPORT. The opcode table read by the fields of a word, and the obligation of 30_encoding.md that the decoder takes
the first row that matches. -/

namespace Sys2Proof

/-- A row of the table by the fields of R70 and R72: `W` and `OFF` fixed, `D` fixed to `d` under `mask`, and some bit of
`D` set under `needs` where the row asks for one. -/
def fieldRow (order : Nat) (w : Bool) (off : Offset) (d mask : Byte) (needs : Byte := 0) : OpcodeRow :=
  ⟨order, accessWord w off d, accessWord true 0b11111 mask, accessWord false 0 needs⟩

theorem opcodeTable_eq_fieldRows : opcodeTable =
    [fieldRow 1 true 0b00000 0 0, fieldRow 2 true 0b00100 0 0, fieldRow 3 true 0b01000 0x00 0xFF,
      fieldRow 4 true 0b01000 0x80 0xFF, fieldRow 5 true 0b01000 0 0 0x7F, fieldRow 6 true 0b01100 0 0,
      fieldRow 7 true 0b10000 0x00 0xFF, fieldRow 8 true 0b10000 0x01 0xFF, fieldRow 9 true 0b10000 0x90 0xFE,
      fieldRow 10 true 0b10000 0x10 0xFE, fieldRow 11 true 0b10000 0x20 0xFE, fieldRow 12 true 0b10000 0x68 0xFE,
      fieldRow 13 true 0b10000 0x40 0xFE, fieldRow 14 true 0b10000 0xD0 0xFE, fieldRow 15 true 0b10000 0x50 0xFE,
      fieldRow 16 true 0b10000 0 0 0x06, fieldRow 17 true 0b10000 0x28 0xFE, fieldRow 18 true 0b10000 0x60 0xFE,
      fieldRow 19 true 0b10000 0 0, fieldRow 20 false 0b00000 0 0xFF, fieldRow 21 false 0b00100 0 0xFF,
      fieldRow 22 false 0b01000 0 0xFF, fieldRow 23 false 0b01100 0 0xFF, fieldRow 24 false 0b10000 0 0xFF,
      ⟨25, 0, 0, 0⟩] := by
  decide

theorem accessWord_and (w w' : Bool) (off off' : Offset) (d d' : Byte) :
    accessWord w off d &&& accessWord w' off' d' = accessWord (w && w') (off &&& off') (d &&& d') := by
  have top : BitVec.ofBool (w && w') = BitVec.ofBool w &&& BitVec.ofBool w' := by cases w <;> cases w' <;> rfl
  rw [accessWord, accessWord, accessWord, BitVec.and_append, BitVec.and_append, top]

/-! The masks of the rows that fix the whole of `D`, or none of it, in the spelling of the table. -/

theorem byte_and_full (d : Byte) : d &&& 0xFF = d := BitVec.and_allOnes

theorem byte_and_none (d : Byte) : d &&& 0 = 0 := BitVec.and_zero

theorem accessWord_inj {w w' : Bool} {off off' : Offset} {d d' : Byte} :
    accessWord w off d = accessWord w' off' d' ↔ w = w' ∧ off = off' ∧ d = d' := by
  constructor
  · intro h
    exact ⟨by simpa using congrArg wordIsWrite h, by simpa using congrArg wordOffset h,
      by simpa using congrArg wordData h⟩
  · rintro ⟨rfl, rfl, rfl⟩; rfl

theorem fieldRow_hit {n : Nat} {w w' : Bool} {off off' : Offset} {d d' mask needs : Byte} :
    (fieldRow n w' off' d' mask needs).hit (accessWord w off d) = true ↔
      w = w' ∧ off = off' ∧ d &&& mask = d' ∧ (needs = 0 ∨ d &&& needs ≠ 0) := by
  have full : off &&& 31#5 = off := BitVec.and_allOnes
  have zero : (0 : AccessWord) = accessWord false 0 0 := rfl
  simp [fieldRow, OpcodeRow.hit, accessWord_and, accessWord_inj, zero, full, and_assoc]

/-- The order of the first of some rows that a word matches. -/
def firstOf (rows : List OpcodeRow) (word : AccessWord) : Option Nat :=
  (rows.find? fun r => r.hit word).map OpcodeRow.order

theorem firstRow_eq_firstOf (word : AccessWord) : firstRow word = firstOf opcodeTable word := rfl

theorem firstOf_cons (r : OpcodeRow) (rows : List OpcodeRow) (word : AccessWord) :
    firstOf (r :: rows) word = if r.hit word = true then some r.order else firstOf rows word := by
  unfold firstOf
  rw [List.find?_cons]
  cases r.hit word <;> rfl

@[simp] theorem firstOf_fieldRow_cons (n : Nat) (w w' : Bool) (off off' : Offset) (d d' mask needs : Byte)
    (rows : List OpcodeRow) : firstOf (fieldRow n w' off' d' mask needs :: rows) (accessWord w off d) =
      if w = w' ∧ off = off' ∧ d &&& mask = d' ∧ (needs = 0 ∨ d &&& needs ≠ 0) then some n
      else firstOf rows (accessWord w off d) := by
  rw [firstOf_cons]
  exact if_congr fieldRow_hit rfl rfl

/-- The last row of the table has no condition. -/
@[simp] theorem firstOf_any (n : Nat) (word : AccessWord) : firstOf [⟨n, 0, 0, 0⟩] word = some n := by
  simp [firstOf, OpcodeRow.hit]

theorem firstRow_prerLo (v : Byte) : firstRow (accessWord true 0b00000 v) = some 1 := by
  rw [firstRow_eq_firstOf, opcodeTable_eq_fieldRows]
  simp

theorem firstRow_prerHi (v : Byte) : firstRow (accessWord true 0b00100 v) = some 2 := by
  rw [firstRow_eq_firstOf, opcodeTable_eq_fieldRows]
  simp

theorem firstRow_txr (v : Byte) : firstRow (accessWord true 0b01100 v) = some 6 := by
  rw [firstRow_eq_firstOf, opcodeTable_eq_fieldRows]
  simp

/-- Row 5 holds of every control byte that rows 3 and 4 leave. -/
theorem firstRow_control (v : Byte) : firstRow (accessWord true 0b01000 v) = some (decodeControl v).rowOrder := by
  by_cases hd : v = 0x00
  · rw [hd]; rfl
  by_cases he : v = 0x80
  · rw [he]; rfl
  have reserved := control_reserved hd he
  rw [firstRow_eq_firstOf, opcodeTable_eq_fieldRows, decodeControl_of_reserved reserved]
  simp only [firstOf_fieldRow_cons, byte_and_full, byte_and_none, hd, he, reserved, BitVec.reduceEq, true_and,
    false_and, and_false, if_false, not_false_eq_true, ne_eq, or_true, if_true, Instr.rowOrder]

/-- The rows of the command register are the chain of tests the decoder runs. -/
theorem firstRow_command (c : Byte) : firstRow (accessWord true 0b10000 c) = some (decodeCommand c).rowOrder := by
  rw [firstRow_eq_firstOf, opcodeTable_eq_fieldRows]
  simp only [firstOf_fieldRow_cons, byte_and_full, byte_and_none, BitVec.reduceEq, true_and, and_true, false_and,
    true_or, false_or, if_true, if_false, decodeCommand, apply_ite Instr.rowOrder, apply_ite some]
  rfl

theorem firstRow_unmapped {off : Offset} (h : isMapped off.toNat = false) (w : Bool) (d : Byte) :
    firstRow (accessWord w off d) = some 25 := by
  have apart : off ≠ 0b00000 ∧ off ≠ 0b00100 ∧ off ≠ 0b01000 ∧ off ≠ 0b01100 ∧ off ≠ 0b10000 := by
    refine ⟨?_, ?_, ?_, ?_, ?_⟩ <;> rintro rfl <;> exact Bool.noConfusion h
  rw [firstRow_eq_firstOf, opcodeTable_eq_fieldRows]
  simp only [firstOf_fieldRow_cons, apart, false_and, and_false, if_false, firstOf_any]

theorem firstRow_decodeWrite (off : Offset) (d : Byte) :
    firstRow (accessWord true off d) = some (decodeWrite off.toNat d).rowOrder := by
  rcases offset_cases off with rfl | rfl | rfl | rfl | rfl | unmapped
  · exact firstRow_prerLo d
  · exact firstRow_prerHi d
  · exact firstRow_control d
  · exact firstRow_txr d
  · exact firstRow_command d
  · rw [firstRow_unmapped unmapped, decodeWrite_of_unmapped unmapped]; rfl

theorem firstRow_decodeRead (off : Offset) :
    firstRow (accessWord false off 0) = some (decodeRead off.toNat).rowOrder := by
  rcases offset_cases off with rfl | rfl | rfl | rfl | rfl | unmapped
  case inr.inr.inr.inr.inr => rw [firstRow_unmapped unmapped, decodeRead_of_unmapped unmapped]; rfl
  all_goals rfl

/-- Settles O3: at each offset the rows of the table are the tests of the decoder, in the same order. -/
theorem decodeFollowsTheFirstMatchingRow : Obligations.DecodeFollowsTheFirstMatchingRow := by
  intro n i h
  obtain ⟨word, rfl, hw⟩ := decodeWord_ok h
  rw [BitVec.ofNat_toNat, BitVec.setWidth_eq]
  obtain ⟨off, d, rfl, rfl⟩ | ⟨off, rfl, rfl⟩ := decodeAccess_ok hw
  · exact firstRow_decodeWrite off d
  · exact firstRow_decodeRead off

end Sys2Proof
end

section
/-! SUPPORT. The words that are rejected, words and bus bytes written out: the other obligations of 30_encoding.md. -/

namespace Sys2Proof

theorem wordIsWrite_ofNat {n : Nat} (h : n < 2 ^ 14) : wordIsWrite (BitVec.ofNat 14 n) = false ↔ n < 2 ^ 13 := by
  have top : wordIsWrite (BitVec.ofNat 14 n) = decide (n / 2 ^ 13 % 2 = 1) := by
    simp only [wordIsWrite, BitVec.getLsbD_ofNat, Nat.testBit_eq_decide_div_mod_eq, Nat.reduceLT, decide_true,
      Bool.true_and]
  rw [top, decide_eq_false_iff_not]
  omega

theorem wordData_ofNat_ne_zero {n : Nat} : wordData (BitVec.ofNat 14 n) ≠ 0 ↔ n % 2 ^ 8 ≠ 0 := by
  have low : (wordData (BitVec.ofNat 14 n)).toNat = n % 2 ^ 8 := by
    simp only [wordData, BitVec.extractLsb'_toNat, BitVec.toNat_ofNat, Nat.shiftRight_zero]
    omega
  rw [← low, ne_eq, ne_eq, BitVec.toNat_eq]
  rfl

/-- The only rejection of a word of 14 bits is that of a read whose `D` is not 0. -/
theorem decodeAccess_error {word : AccessWord} {e : DecodeError} : decodeAccess word = .error e ↔
    wordIsWrite word = false ∧ wordData word ≠ 0 ∧ .readWithData = e := by
  unfold decodeAccess
  split_ifs with hw hd
  · simp [hw]
  · simp [hd]
  · simpa [hw] using fun _ => hd

/-- Settles O4: a number of at most 14 bits is rejected as a word is, and its fields are read off the number. -/
theorem malformedWordsAreRejectedByName : Obligations.MalformedWordsAreRejectedByName := by
  intro n
  unfold decodeWord
  split_ifs with hn
  · rw [decodeAccess_error, decodeAccess_error, wordIsWrite_ofNat hn, wordData_ofNat_ne_zero]
    exact ⟨by simpa using hn, by simp only [and_true]⟩
  · have wide : ¬ n < 2 ^ 13 := by omega
    exact ⟨by simpa using hn, by simpa using fun h => absurd h wide⟩

/-- Settles O5: each of the ten words is a literal, so the decoder computes its instruction. -/
theorem wordsWrittenOutDecodeToTheirRows : Obligations.WordsWrittenOutDecodeToTheirRows :=
  ⟨rfl, rfl, rfl, rfl, rfl, rfl, rfl, rfl, rfl, rfl⟩

/-- Settles O6: the shift moves bit `k` of the masked address to bit `k + 1` and leaves bit 0 to the direction. -/
theorem busAddressByteIsMaskedAddressAndDirection : Obligations.BusAddressByteIsMaskedAddressAndDirection := by
  intro a dir
  constructor
  · cases dir <;> simp [Machine.busByte]
  · intro k hk
    have masked : (0x7F : Byte).getLsbD k = true := by revert k; decide
    have direction : (if dir then 1 else 0 : Byte).getLsbD (k + 1) = false := by
      cases dir <;> revert k <;> decide
    have fits : k + 1 < 8 := by omega
    simp only [Machine.busByte, BitVec.getLsbD_or, BitVec.getLsbD_shiftLeft, BitVec.getLsbD_and, Nat.add_sub_cancel,
      masked, direction, fits]
    simp

end Sys2Proof
end

section
/-! SUPPORT. What the checks, the packed words and the status byte come to in each case: the rules the obligations of
40_register_access.md are proved from. -/

namespace Sys2Proof

/-- The three fields of an access word do not overlap (30_encoding.md R70). -/
theorem accessWord_toNat (w : Bool) (off : Offset) (d : Byte) :
    (accessWord w off d).toNat = w.toNat * 0x2000 + off.toNat * 0x100 + d.toNat := by
  have hoff := off.isLt
  have hd := d.isLt
  simp only [accessWord, BitVec.toNat_append, BitVec.toNat_ofBool]
  rw [← Nat.shiftLeft_add_eq_or_of_lt hd, ← Nat.shiftLeft_add_eq_or_of_lt hoff]
  simp only [Nat.shiftLeft_eq]
  omega

/-- A CTR write decodes to the reserved row unless it writes one of the two legal bytes (40_register_access.md R102). -/
theorem decodeControl_eq_reserved {v : Byte} : decodeControl v = .wrCtrReserved v ↔ v ≠ 0x00 ∧ v ≠ 0x80 := by
  unfold decodeControl
  split_ifs with hd he
  · simp [hd]
  · simp [he]
  · exact iff_of_true rfl ⟨hd, he⟩

theorem isMapped_eq_false {off : Nat} (hlo : off ≠ 0x0) (hhi : off ≠ 0x4) (hctr : off ≠ 0x8) (hdata : off ≠ 0xC)
    (hcmd : off ≠ 0x10) : isMapped off = false := by
  simp [isMapped, Config.offPrerLo, Config.offPrerHi, Config.offCtr, Config.offData, Config.offCmd, *]

namespace Machine

/-! ## The checks of a register write -/

section
variable {b : Block} (k : BlockOut)

theorem Block.checkPrescale_of_enabled (he : b.en = true) : b.checkPrescale k = .fault .prescaleWhileEnabled := by
  simp only [Block.checkPrescale, he, if_true]

theorem Block.checkPrescale_of_configured (he : b.en = false) (hc : b.configured = true) :
    b.checkPrescale k = .refused .reconfigure := by
  simp [Block.checkPrescale, he, hc]

theorem Block.checkPrescale_of_unconfigured (he : b.en = false) (hc : b.configured = false) :
    b.checkPrescale k = k := by
  simp [Block.checkPrescale, he, hc]

theorem Block.checkNotPending_of_pending (hp : b.pending ≠ none) :
    b.checkNotPending k = .fault .accessDuringTransfer := by
  simp [Block.checkNotPending, Option.isSome_iff_ne_none, hp]

theorem Block.checkNotPending_of_none (hp : b.pending = none) : b.checkNotPending k = k := by
  simp [Block.checkNotPending, hp]

end

theorem Block.Inv.enabled_of_pending {b : Block} (h : b.Inv) (hp : b.pending ≠ none) : b.en = true := by
  by_contra he
  exact hp (h.not_pending_of_disabled (Bool.eq_false_of_not_eq_true he))

@[simp] theorem State.onBlock_of_next (s : State) (b : Block) : s.onBlock (.next b) = .next (s.withBlock b) := rfl
@[simp] theorem State.onBlock_of_fault (s : State) (f : Fault) : s.onBlock (.fault f) = .fault f := rfl
@[simp] theorem State.onBlock_of_refused (s : State) (r : Refusal) : s.onBlock (.refused r) = .refused r := rfl

/-! ## Register writes -/

theorem exec_wrPrerlo (v : Byte) (s : State) : exec (.wrPrerlo v) s =
    s.onBlock (s.block.checkPrescale (.next { s.block with prerLo := v, loWritten := true })) := rfl

theorem exec_wrPrerhi (v : Byte) (s : State) : exec (.wrPrerhi v) s =
    s.onBlock (s.block.checkPrescale (.next { s.block with prerHi := v, hiWritten := true })) := rfl

theorem exec_wrTxr (v : Byte) (s : State) :
    exec (.wrTxr v) s = s.onBlock (s.block.checkNotPending (.next { s.block with txr := v })) := rfl

theorem exec_wrCtrDisable (s : State) : exec .wrCtrDisable s = s.onBlock (s.block.checkNotPending
    (if s.block.phase ≠ .idle then .fault .disableWhileActive else .next s.block.disable)) :=
  congrArg s.onBlock s.block.writeControl_disable

theorem exec_wrCtrEnable (s : State) : exec .wrCtrEnable s =
    s.onBlock (s.block.checkNotPending (.next (if s.block.en then s.block else s.block.enable))) :=
  congrArg s.onBlock s.block.writeControl_enable

/-- A prescale write while EN = 1 is E02, whether or not the block is configured. -/
theorem exec_prescale_of_enabled {s : State} (he : s.block.en = true) (v : Byte) :
    exec (.wrPrerlo v) s = .fault .prescaleWhileEnabled ∧ exec (.wrPrerhi v) s = .fault .prescaleWhileEnabled := by
  rw [exec_wrPrerlo, exec_wrPrerhi, Block.checkPrescale_of_enabled _ he, Block.checkPrescale_of_enabled _ he]
  exact ⟨rfl, rfl⟩

/-! ## Register reads -/

theorem exec_rdRxr_of_none {s : State} (hp : s.block.pending = none) :
    exec .rdRxr s = .next (s.answer s.block.rxr) := by
  simp [exec, execRdRxr, hp]

theorem exec_rdRxr_of_pending {s : State} (hp : s.block.pending ≠ none) :
    exec .rdRxr s = .next (s.answerDrawn s.nextDraw) := by
  simp [exec, execRdRxr, Option.isSome_iff_ne_none, hp]

/-- The registers the host cannot read back answer a draw. -/
theorem exec_writeOnly {i : Instr} (hi : i ∈ [Instr.rdPrerlo, .rdPrerhi, .rdCtr]) (s : State) :
    exec i s = .next (s.answerDrawn s.nextDraw) := by
  simp only [List.mem_cons, List.not_mem_nil, or_false] at hi
  obtain rfl | rfl | rfl := hi <;> rfl

theorem exec_rdSr (s : State) :
    exec .rdSr s = .next (s.answerDrawn (statusByte s.params s.block s.nextDraw)) := rfl

/-! ## The bits of the status byte -/

section
variable (p : Config.Params) (b : Block) (x : Byte)

@[simp] theorem statusByte_bit7 : (statusByte p b x).getLsbD 7 = rxackFlag b (x.getLsbD 7) := byteOfBits_bit7 ..
@[simp] theorem statusByte_bit6 : (statusByte p b x).getLsbD 6 = busyFlag p b (x.getLsbD 6) := byteOfBits_bit6 ..
@[simp] theorem statusByte_bit5 : (statusByte p b x).getLsbD 5 = false := byteOfBits_bit5 ..
@[simp] theorem statusByte_bit1 : (statusByte p b x).getLsbD 1 = tipFlag p b := byteOfBits_bit1 ..
@[simp] theorem statusByte_bit0 : (statusByte p b x).getLsbD 0 = b.irqFlag := byteOfBits_bit0 ..

/-- Bits 4:2 name no flag and are the draw's. -/
theorem statusByte_unnamed {k : Nat} (hlow : 2 ≤ k) (hhigh : k ≤ 4) :
    (statusByte p b x).getLsbD k = x.getLsbD k := by
  obtain rfl | rfl | rfl : k = 2 ∨ k = 3 ∨ k = 4 := by omega
  · exact byteOfBits_bit2 ..
  · exact byteOfBits_bit3 ..
  · exact byteOfBits_bit4 ..

end

section
variable {p : Config.Params} {b : Block} (x : Bool)

theorem rxackFlag_of_known {a : Bool} (hp : b.pending = none) (ha : b.rxack = some a) : rxackFlag b x = a := by
  simp only [rxackFlag, hp, ha]

theorem rxackFlag_of_unknown (h : b.pending ≠ none ∨ b.rxack = none) : rxackFlag b x = x := by
  unfold rxackFlag
  split
  next a hp ha => simp [hp, ha] at h
  next => rfl

theorem busyFlag_of_inProgress (hb : p.bit6 = .inProgress) : busyFlag p b x = b.pending.isSome := by
  simp only [busyFlag, hb]

theorem busyFlag_of_none (hb : p.bit6 = .busHeld) (hp : b.pending = none) :
    busyFlag p b x = (b.phase != .idle) := by
  simp [busyFlag, hb, hp]

theorem busyFlag_of_pending (hb : p.bit6 = .busHeld) (hp : b.pending ≠ none) : busyFlag p b x = x := by
  simp [busyFlag, hb, Option.isSome_iff_ne_none, hp]

theorem tipFlag_of_none (hp : b.pending = none) : tipFlag p b = false := by
  simp only [tipFlag, hp]

theorem tipFlag_of_pending {c : Command} (hp : b.pending = some c) :
    tipFlag p b = (p.tipScope == .allCommands || c.rd || c.wr.isSome) := by
  simp only [tipFlag, hp]

end

/-! ## The settle count -/

@[simp] theorem runOp_delay (s : State) (n : Nat) : s.runOp (.delay n) = .next (s.delay n) := rfl

theorem State.delay_of_enabled {s : State} (he : s.block.en = true) (n : Nat) :
    s.delay n = s.withBlock { s.block with settleUs := s.block.settleUs + n } := by
  rw [State.delay, Block.delay, if_pos he]

theorem State.delay_of_disabled {s : State} (he : s.block.en = false) (n : Nat) : s.delay n = s := by
  rw [State.delay, Block.delay, if_neg (ne_true_of_eq_false he), State.withBlock_self]

end Machine

end Sys2Proof
end

section
/-! SUPPORT. The obligations of 40_register_access.md, rule by rule: R100 to R108. -/

namespace Sys2Proof.Machine

/-- Settles O11: E02 is checked first, and the invariant makes a block with a pending command an enabled one. -/
theorem prescaleWritesStoreTheirByte : Obligations.PrescaleWritesStoreTheirByte := by
  intro v s
  refine ⟨fun he => exec_prescale_of_enabled he v, fun he hc => ?_, fun he hc => ?_,
    fun hinv hp => exec_prescale_of_enabled (hinv.enabled_of_pending hp) v, accessWord_toNat .., accessWord_toNat ..⟩
  · rw [exec_wrPrerlo, exec_wrPrerhi, Block.checkPrescale_of_configured _ he hc,
      Block.checkPrescale_of_configured _ he hc]
    exact ⟨rfl, rfl⟩
  · rw [exec_wrPrerlo, exec_wrPrerhi, Block.checkPrescale_of_unconfigured _ he hc,
      Block.checkPrescale_of_unconfigured _ he hc]
    exact ⟨rfl, rfl⟩

/-- Settles O12: the decoder tells the three rows apart, and the check of a pending command comes before that of the
phase. -/
theorem controlWriteEnablesAndDisables : Obligations.ControlWriteEnablesAndDisables := by
  intro s
  refine ⟨fun _ => rfl, fun _ => decodeControl_eq_reserved, ⟨rfl, rfl⟩, fun hp => ?_, fun hp hh => ?_, fun hp hi => ?_,
    fun hp he => ?_, fun hp he => ?_, rfl, rfl, fun _ => accessWord_toNat ..⟩
  · rw [exec_wrCtrDisable, exec_wrCtrEnable, Block.checkNotPending_of_pending _ hp,
      Block.checkNotPending_of_pending _ hp]
    exact ⟨rfl, rfl⟩
  · rw [exec_wrCtrDisable, Block.checkNotPending_of_none _ hp, if_pos hh, State.onBlock_of_fault]
  · rw [exec_wrCtrDisable, Block.checkNotPending_of_none _ hp, if_neg (not_not_intro hi), State.onBlock_of_next]
    rfl
  · rw [exec_wrCtrEnable, Block.checkNotPending_of_none _ hp, he]
    rfl
  · rw [exec_wrCtrEnable, Block.checkNotPending_of_none _ hp, he]
    rfl

/-- Settles O13: the byte is the next free value. -/
theorem writeOnlyRegistersReadSomeByte : Obligations.WriteOnlyRegistersReadSomeByte :=
  ⟨fun s _ hi => ⟨s.nextDraw, exec_writeOnly hi s⟩, rfl, rfl, rfl⟩

/-- Settles O14: the write is the check of a pending command and the store. -/
theorem transmitWriteStoresTheByte : Obligations.TransmitWriteStoresTheByte := by
  intro v s
  refine ⟨fun hp => ?_, fun hp => ?_, accessWord_toNat ..⟩
  · rw [exec_wrTxr, Block.checkNotPending_of_pending _ hp, State.onBlock_of_fault]
  · rw [exec_wrTxr, Block.checkNotPending_of_none _ hp, State.onBlock_of_next]

/-- Settles O15: while a command is pending the byte is the next free value. -/
theorem receiveReadReturnsTheByte : Obligations.ReceiveReadReturnsTheByte :=
  ⟨fun s => ⟨exec_rdRxr_of_none, fun hp => ⟨s.nextDraw, exec_rdRxr_of_pending hp⟩⟩, rfl⟩

/-- Settles O16: a bit of the status byte that names no flag, or whose flag is not known, is the draw's. -/
theorem drawingReadsReturnTheNextFreeValue : Obligations.DrawingReadsReturnTheNextFreeValue := by
  intro s
  refine ⟨fun _ hi => exec_writeOnly hi s, exec_rdRxr_of_pending, _, exec_rdSr s,
    fun k hlow hhigh => statusByte_unnamed _ _ _ hlow hhigh, fun hp => ?_, fun hb hp => ?_⟩
  · rw [statusByte_bit7, rxackFlag_of_unknown _ hp, State.nextDraw]
  · rw [statusByte_bit6, busyFlag_of_pending _ hb hp, State.nextDraw]

/-- Settles O17: bit by bit, each is the flag of its place, and each flag is decided by what is pending and the
parameters. -/
theorem statusReadReturnsTheFlags : Obligations.StatusReadReturnsTheFlags := by
  refine ⟨rfl, fun s => ⟨_, exec_rdSr s, ?rxack, ?busy, ?held, statusByte_bit5 .., ?idle, ?tip, statusByte_bit0 ..⟩⟩
  case rxack =>
    intro a hp ha
    rw [statusByte_bit7, rxackFlag_of_known _ hp ha]
  case busy =>
    intro hb
    rw [statusByte_bit6, busyFlag_of_inProgress _ hb]
  case held =>
    intro hb hp
    rw [statusByte_bit6, busyFlag_of_none _ hb hp]
  case idle =>
    intro hp
    rw [statusByte_bit1, tipFlag_of_none hp]
  case tip =>
    intro c hp
    rw [statusByte_bit1, tipFlag_of_pending hp]

/-- Settles O18: the decoder gives every other offset the unmapped row, whose meaning reads no state. -/
theorem unmappedAccessesAreRefusedInEveryState : Obligations.UnmappedAccessesAreRefusedInEveryState := by
  intro w off d s
  refine ⟨rfl, fun hlo hhi hctr hdata hcmd => ?_⟩
  have unmapped := isMapped_eq_false hlo hhi hctr hdata hcmd
  rw [State.act, State.act, decodeWrite_of_unmapped unmapped, decodeRead_of_unmapped unmapped]
  exact ⟨rfl, rfl⟩

/-- Settles O19: the step of a delay is the delay, which adds to the count of an enabled block only. -/
theorem delayCountsOnlyWhileEnabled : Obligations.DelayCountsOnlyWhileEnabled := by
  intro s n rest hf hq ht hp
  have delays : step s = .next ((s.withProgram rest).delay n) :=
    (step_runs_program_of_empty_schedule hf hq hp ht).trans (runOp_delay ..)
  refine ⟨fun he => ?_, fun he => ?_, fun u => ?_⟩
  · rw [delays, State.delay_of_enabled (s := s.withProgram rest) he, State.withProgram_block]
  · rw [delays, State.delay_of_disabled (s := s.withProgram rest) he]
  · rw [State.act]
    cases he : u.block.en
    · rw [State.delay_of_disabled he, if_neg Bool.false_ne_true]
    · rw [State.delay_of_enabled he, if_pos rfl]

end Sys2Proof.Machine
end

section
/-! SUPPORT. The checks of a command write and its acceptance, and what a completion does, each in every case: the rules
the obligations of 41_commands.md are proved from. -/

namespace Sys2Proof.Machine

/-! ## The shape of a check -/

/-- A check goes on unchanged, or stops whatever would come next: it cannot see what it guards. -/
inductive IsCheck : (BlockOut → BlockOut) → Prop where
  | pass : IsCheck fun k => k
  | fault (f : Fault) : IsCheck fun _ => .fault f
  | refuse (r : Refusal) : IsCheck fun _ => .refused r

namespace IsCheck

theorem comp {f g : BlockOut → BlockOut} (hf : IsCheck f) (hg : IsCheck g) : IsCheck fun k => f (g k) := by
  cases hf with
  | pass => exact hg
  | fault e => exact .fault e
  | refuse r => exact .refuse r

theorem ite {q : Prop} [Decidable q] {f g : BlockOut → BlockOut} (hf : IsCheck f) (hg : IsCheck g) :
    IsCheck fun k => if q then f k else g k := by
  by_cases h : q
  · simpa only [h, if_true] using hf
  · simpa only [h, if_false] using hg

/-- Two effects behind one check differ as the effects do. -/
theorem onBlock_mapNext {check : BlockOut → BlockOut} (h : IsCheck check) {s : State} {b t : Block}
    {f : State → State} (hf : s.withBlock t = f (s.withBlock b)) :
    s.onBlock (check (.next t)) = mapNext f (s.onBlock (check (.next b))) := by
  cases h with
  | pass => exact congrArg Host.Outcome.next hf
  | fault e => rfl
  | refuse r => rfl

theorem checkNotPending (b : Block) : IsCheck b.checkNotPending := ite (.fault _) .pass

theorem checkStatic (c : CommandBits) : IsCheck c.checkStatic :=
  ite (.refuse _) (ite (.fault _) (ite (.fault _) .pass))

theorem checkReady (b : Block) : IsCheck b.checkReady :=
  (checkNotPending b).comp (ite (.fault _) (ite (.fault _) (ite (.fault _) .pass)))

theorem checkPhase (b : Block) (c : CommandBits) : IsCheck (b.checkPhase c) := by
  unfold Block.checkPhase
  cases b.phase with
  | idle => exact ite .pass (.fault _)
  | heldM => exact ite (.fault _) .pass
  | heldS => exact ite .pass (.fault _)

end IsCheck

/-! ## Static legality (41_commands.md R124) -/

section
variable {c : CommandBits} (k : BlockOut)

theorem CommandBits.checkStatic_of_illegal
    (h : c.rd = true ∧ c.wr = true ∨ c.sta = true ∧ c.rd = true ∨ c.sta = true ∧ c.wr = false ∨
      c.ack = true ∧ c.rd = false) : c.checkStatic k = .refused .illegalCombination := by
  have illegal : (c.rd && c.wr || c.sta && c.rd || c.sta && !c.wr || c.ack && !c.rd) = true := by
    simpa [or_assoc] using h
  rw [CommandBits.checkStatic, if_pos illegal]

theorem CommandBits.checkStatic_of_unfoldedStop (hsta : c.sta = false) (hrd : c.rd = true) (hwr : c.wr = false)
    (hack : c.ack = true) (hsto : c.sto = false) : c.checkStatic k = .fault .unfoldedStop := by
  simp [CommandBits.checkStatic, hsta, hrd, hwr, hack, hsto]

theorem CommandBits.checkStatic_of_ackedReadStop (hsta : c.sta = false) (hrd : c.rd = true) (hwr : c.wr = false)
    (hsto : c.sto = true) (hack : c.ack = false) : c.checkStatic k = .fault (.slaveHoldsBus []) := by
  simp [CommandBits.checkStatic, hsta, hrd, hwr, hack, hsto]

theorem CommandBits.checkStatic_of_admitted (h : c ∈ CommandBits.admitted) : c.checkStatic k = k := by
  simp only [CommandBits.admitted, List.mem_cons, List.not_mem_nil, or_false] at h
  rcases h with rfl | rfl | rfl | rfl | rfl | rfl | rfl <;> rfl

end

/-! ## Preconditions and the phase (41_commands.md R121, R123) -/

section
variable {b : Block} (k : BlockOut)

theorem Block.checkReady_of_pending (hp : b.pending ≠ none) : b.checkReady k = .fault .accessDuringTransfer :=
  Block.checkNotPending_of_pending _ hp

theorem Block.checkReady_of_disabled (hp : b.pending = none) (he : b.en = false) :
    b.checkReady k = .fault .commandWhileDisabled := by
  simp [Block.checkReady, Block.checkNotPending_of_none _ hp, he]

theorem Block.checkReady_of_unconfigured (hp : b.pending = none) (he : b.en = true) (hc : b.configured = false) :
    b.checkReady k = .fault .commandUnconfigured := by
  simp [Block.checkReady, Block.checkNotPending_of_none _ hp, he, hc]

theorem Block.checkReady_of_unsettled (hp : b.pending = none) (he : b.en = true) (hc : b.configured = true)
    (hs : b.settleUs < Config.tSettleUs) : b.checkReady k = .fault .commandBeforeSettle := by
  simp [Block.checkReady, Block.checkNotPending_of_none _ hp, he, hc, hs]

theorem Block.checkReady_of_ready (h : b.Ready) : b.checkReady k = k := by
  obtain ⟨hp, he, hc, hs⟩ := h
  simp [Block.checkReady, Block.checkNotPending_of_none _ hp, he, hc, Nat.not_lt.mpr hs]

theorem Block.checkPhase_of_idle (h : b.phase = .idle) (c : CommandBits) :
    b.checkPhase c k = if c.sta then k else .fault .noStart := by
  simp only [Block.checkPhase, h]

theorem Block.checkPhase_of_heldM (h : b.phase = .heldM) (c : CommandBits) :
    b.checkPhase c k = if c.rd then .fault .wrongDirection else k := by
  simp only [Block.checkPhase, h]

theorem Block.checkPhase_of_heldS (h : b.phase = .heldS) (c : CommandBits) :
    b.checkPhase c k = if c.rd then k else .fault (.slaveHoldsBus []) := by
  simp only [Block.checkPhase, h]

end

/-! ## Transfer commands -/

theorem admitted_of_transferOf {i : Instr} {c : CommandBits} {k : Bool} (h : transferOf i = some (c, k)) :
    c ∈ CommandBits.admitted := by
  unfold transferOf at h
  split at h <;> cases h <;> decide

theorem exec_eq_transfer {i : Instr} {c : CommandBits} {k : Bool} (h : transferOf i = some (c, k)) (s : State) :
    exec i s = s.onBlock (s.block.transfer c k) := by
  unfold transferOf at h
  split at h <;> cases h <;> rfl

/-- A transfer instruction has passed the static checks: its bits are those of an admitted command. -/
theorem exec_of_transfer {i : Instr} {c : CommandBits} {k : Bool} (h : transferOf i = some (c, k)) (s : State) :
    exec i s = s.onBlock (s.block.checkReady (s.block.checkPhase c (.next (s.block.accept c k)))) := by
  rw [exec_eq_transfer h, Block.transfer, CommandBits.checkStatic_of_admitted _ (admitted_of_transferOf h)]

theorem exec_of_ready_transfer {i : Instr} {c : CommandBits} {k : Bool} (h : transferOf i = some (c, k)) {s : State}
    (hr : s.block.Ready) : exec i s = s.onBlock (s.block.checkPhase c (.next (s.block.accept c k))) := by
  rw [exec_of_transfer h, Block.checkReady_of_ready _ hr]

theorem Block.accept_iack (b : Block) (c : CommandBits) : b.accept c true = (b.accept c false).clearIrq := by
  simp [Block.accept, Block.clearIrq]

/-- The IACK bit of a transfer command decides only whether IF is cleared (41_commands.md R125). -/
theorem onBlock_transfer_iack (s : State) (b : Block) (c : CommandBits) : s.onBlock (b.transfer c true) =
    mapNext (fun t => t.withBlock t.block.clearIrq) (s.onBlock (b.transfer c false)) :=
  ((IsCheck.checkStatic c).comp ((IsCheck.checkReady b).comp (IsCheck.checkPhase b c))).onBlock_mapNext
    (congrArg s.withBlock (b.accept_iack c))

/-! ## The bits of a command byte -/

theorem reserved_iff {c : Byte} : c &&& 0x06 ≠ 0 ↔ c.getLsbD 2 = true ∨ c.getLsbD 1 = true := by
  revert c; decide

/-- Without reserved bits, a byte that is no named form breaks a rule of the combination (41_commands.md R124, R135). -/
theorem illegal_of_unnamed {c : Byte} (hr : c &&& 0x06 = 0) (hn : isNamedCommand c = false) :
    c.getLsbD 5 = true ∧ c.getLsbD 4 = true ∨ c.getLsbD 7 = true ∧ c.getLsbD 5 = true ∨
      c.getLsbD 7 = true ∧ c.getLsbD 4 = false ∨ c.getLsbD 3 = true ∧ c.getLsbD 5 = false := by
  revert c; decide

theorem CommandBits.ofByte_of_masked_zero {c : Byte} (h : c &&& 0xFE = 0) :
    CommandBits.ofByte c = ⟨false, false, false, false, false⟩ := by
  revert c; decide

theorem CommandBits.ofByte_masked (c : Byte) : CommandBits.ofByte (c &&& 0xFE) = CommandBits.ofByte c := by
  revert c; decide

theorem masked_masked (c : Byte) : (c &&& 0xFE) &&& 0xFE = c &&& 0xFE := BitVec.and_assoc c 0xFE 0xFE

theorem or_iack_masked (c : Byte) : (c ||| 0x01) &&& 0xFE = c &&& 0xFE := by
  revert c; decide

theorem masked_iack (c : Byte) : (c &&& 0xFE).getLsbD 0 = false := by
  revert c; decide

theorem or_iack_iack (c : Byte) : (c ||| 0x01).getLsbD 0 = true := by
  revert c; decide

/-! ## Writes of the command register (41_commands.md R120) -/

section
variable {c : Byte} (b : Block)

theorem Block.writeCommandRegister_of_reserved (h : c &&& 0x06 ≠ 0) :
    b.writeCommandRegister c = .refused .commandReservedBits := by
  rw [Block.writeCommandRegister, if_pos h]

theorem Block.writeCommandRegister_of_no_transfer (h : c &&& 0xFE = 0) :
    b.writeCommandRegister c = .next (if c.getLsbD 0 then b.clearIrq else b) := by
  have unreserved : c &&& 0x06 = 0 := by rw [← masked_and_reserved, h]; rfl
  rw [Block.writeCommandRegister, if_neg (not_not_intro unreserved), if_pos h]

theorem Block.writeCommandRegister_of_transfer (hr : c &&& 0x06 = 0) (h : c &&& 0xFE ≠ 0) :
    b.writeCommandRegister c = b.transfer (CommandBits.ofByte c) (c.getLsbD 0) := by
  rw [Block.writeCommandRegister, if_neg (not_not_intro hr), if_neg h]

/-- A byte whose combination of bits stops has transfer bits: without any, the static checks go on with whatever is
next. -/
theorem Block.writeCommandRegister_of_static_stop {o : BlockOut} (hr : c &&& 0x06 = 0)
    (hs : ∀ k, (CommandBits.ofByte c).checkStatic k = o) : b.writeCommandRegister c = o := by
  have transfers : c &&& 0xFE ≠ 0 := by
    intro hz
    rw [CommandBits.ofByte_of_masked_zero hz] at hs
    cases (hs (.fault .noStart)).trans (hs (.fault .wrongDirection)).symm
  rw [Block.writeCommandRegister_of_transfer b hr transfers, Block.transfer, hs]

theorem Block.writeCommandRegister_irqFlag {t : Block} (h : b.writeCommandRegister c = .next t) :
    t.irqFlag = (b.irqFlag && !c.getLsbD 0) := by
  by_cases hr : c &&& 0x06 = 0
  · by_cases hz : c &&& 0xFE = 0
    · rw [Block.writeCommandRegister_of_no_transfer b hz] at h
      cases h
      cases c.getLsbD 0 <;> simp
    · rw [Block.writeCommandRegister_of_transfer b hr hz] at h
      obtain ⟨-, -, -, rfl⟩ := Block.transfer_next.mp h
      exact Block.accept_irqFlag ..
  · rw [Block.writeCommandRegister_of_reserved b hr] at h
    cases h

end

/-- With IACK set, a command write is the write without it, and IF is cleared in its next state (41_commands.md R125). -/
theorem onBlock_writeCommandRegister_iack (c : Byte) (s : State) :
    s.onBlock (s.block.writeCommandRegister (c ||| 0x01)) =
      mapNext (fun t => t.withBlock t.block.clearIrq) (s.onBlock (s.block.writeCommandRegister (c &&& 0xFE))) := by
  have sameReserved : (c ||| 0x01) &&& 0x06 = (c &&& 0xFE) &&& 0x06 := by
    rw [← masked_and_reserved (c ||| 0x01), or_iack_masked]
  have sameBits : CommandBits.ofByte (c ||| 0x01) = CommandBits.ofByte (c &&& 0xFE) := by
    rw [← CommandBits.ofByte_masked (c ||| 0x01), or_iack_masked]
  by_cases hr : (c &&& 0xFE) &&& 0x06 = 0
  · by_cases hz : c &&& 0xFE = 0
    · rw [Block.writeCommandRegister_of_no_transfer _ ((or_iack_masked c).trans hz),
        Block.writeCommandRegister_of_no_transfer _ ((masked_masked c).trans hz), or_iack_iack, masked_iack]
      rfl
    · rw [Block.writeCommandRegister_of_transfer _ (sameReserved.trans hr) (or_iack_masked c ▸ hz),
        Block.writeCommandRegister_of_transfer _ hr ((masked_masked c).symm ▸ hz), or_iack_iack, masked_iack, sameBits]
      exact onBlock_transfer_iack ..
  · rw [Block.writeCommandRegister_of_reserved _ hr, Block.writeCommandRegister_of_reserved _ (sameReserved ▸ hr)]
    rfl

/-- The decoder and the ordered checks agree on every command byte: rows 16 and 19 are the checks that stop before the
state is read, and the named forms compute. -/
theorem exec_decodeWrite_command (c : Byte) (s : State) :
    exec (decodeWrite 0x10 c) s = s.onBlock (s.block.writeCommandRegister c) := by
  change exec (decodeCommand c) s = _
  rcases command_cases c with reserved | ⟨unreserved, unnamed⟩ | named
  · rw [decodeCommand_of_reserved reserved, Block.writeCommandRegister_of_reserved _ reserved]
    rfl
  · rw [decodeCommand_of_illegal unreserved unnamed, Block.writeCommandRegister_of_static_stop _ unreserved
      fun k => CommandBits.checkStatic_of_illegal k (illegal_of_unnamed unreserved unnamed)]
    rfl
  · obtain ⟨i, form⟩ := namedCommand_forms named
    rcases form with rfl | rfl | rfl | rfl | rfl | rfl | rfl | rfl | rfl | rfl <;> cases i <;> rfl

/-! ## Completions (42_byte_engine.md R164) -/

section
variable {b : Block} {p : Command} (a : Bool) (d : Byte)

/-- What the parts of a command before its STOP do to the block (42_byte_engine.md R151, R153 to R157). -/
theorem Block.beforeStop_eq (p : Command) (b : Block) : b.beforeStop p a d = { b with
    rxack := p.wr.map fun _ => a
    rxr := if p.rd then d else b.rxr
    phase := (b.beforeStop p a d).phase
    trace := b.trace ++ p.symbols a d } := by
  unfold Block.beforeStop Block.readPart Block.writePart Block.startPart Command.symbols
  cases p.sta <;> cases p.wr <;> cases p.rd <;> simp [Block.emit]

variable (hp : b.pending = some p)
include hp

theorem Block.complete_without_stop (hs : p.sto = false) :
    b.complete a d = .next (b.beforeStop p a d).finish := by
  simp [Block.complete, hp, hs]

theorem Block.complete_with_stop (hs : p.sto = true) (hh : (b.beforeStop p a d).phase ≠ .heldS) :
    b.complete a d = .next (b.beforeStop p a d).stopPart.finish := by
  simp [Block.complete, hp, hs, hh]

theorem Block.complete_finds_slave (hs : p.sto = true) (hh : (b.beforeStop p a d).phase = .heldS) :
    b.complete a d = .fault (.slaveHoldsBus (p.symbols a d)) := by
  simp [Block.complete, hp, hs, hh, Block.beforeStop_trace]

/-- The completion of a command without STOP, field by field. -/
theorem Block.complete_without_stop_eq (hs : p.sto = false) : b.complete a d = .next { b with
    pending := none, irqFlag := true
    rxack := p.wr.map fun _ => a
    rxr := if p.rd then d else b.rxr
    phase := (b.beforeStop p a d).phase
    trace := b.trace ++ p.symbols a d } := by
  rw [Block.complete_without_stop a d hp hs, Block.beforeStop_eq]
  rfl

/-- The completion of a command with STOP on a bus the slave does not hold, field by field. -/
theorem Block.complete_with_stop_eq (hs : p.sto = true) (hh : (b.beforeStop p a d).phase ≠ .heldS) :
    b.complete a d = .next { b with
      pending := none, irqFlag := true
      rxack := p.wr.map fun _ => a
      rxr := if p.rd then d else b.rxr
      phase := .idle
      trace := b.trace ++ p.symbols a d ++ [.stop] } := by
  rw [Block.complete_with_stop a d hp hs hh, Block.beforeStop_eq]
  rfl

end

/-! The phase in which the STOP part finds the bus (42_byte_engine.md R153, R155, R160). -/

section
variable (sto : Bool) (byte : Byte) (a : Bool) (d : Byte) (b : Block)

/-- The slave drives next after an address byte it acknowledged with direction bit 1. -/
theorem Block.beforeStop_phase_of_address : (b.beforeStop ⟨true, sto, false, some byte, false⟩ a d).phase =
    if a = false ∧ byte.getLsbD 0 = true then .heldS else .heldM := by
  change phaseAfterWrite _ byte a = _
  simp [phaseAfterWrite]

theorem Block.beforeStop_phase_of_payload : (b.beforeStop ⟨false, sto, false, some byte, false⟩ a d).phase = .heldM :=
  rfl

theorem Block.beforeStop_phase_of_read (ack : Bool) : (b.beforeStop ⟨false, sto, true, none, ack⟩ a d).phase =
    if ack then .heldM else .heldS := rfl

theorem Block.beforeStop_phase_of_stop : (b.beforeStop ⟨false, sto, false, none, false⟩ a d).phase = b.phase := rfl

end

end Sys2Proof.Machine
end

section
/-! SUPPORT. The obligations of 41_commands.md: the checks and the acceptance of a command write, and the completions of
the commands. -/

namespace Sys2Proof.Machine

/-- Settles O22: the agreement of the decoder with the ordered checks, at the offset of CR. -/
theorem commandByteFollowsTheOrderedChecks : Obligations.CommandByteFollowsTheOrderedChecks := exec_decodeWrite_command

/-- Settles O23: every check passes, and what is left is the acceptance. -/
theorem transferCommandsAreAccepted : Obligations.TransferCommandsAreAccepted := by
  intro i c k s h hr ha
  rw [exec_of_ready_transfer h hr, Block.checkPhase_next.mpr ⟨ha, rfl⟩]
  rfl

/-- Settles O24: each precondition stops once those before it pass. -/
theorem transferPreconditionsFaultInOrder : Obligations.TransferPreconditionsFaultInOrder := by
  intro i c k s h
  rw [exec_of_transfer h]
  refine ⟨fun hp => ?_, fun hp he => ?_, fun hp he hc => ?_, fun hp he hc hs => ?_⟩
  · rw [Block.checkReady_of_pending _ hp, State.onBlock_of_fault]
  · rw [Block.checkReady_of_disabled _ hp he, State.onBlock_of_fault]
  · rw [Block.checkReady_of_unconfigured _ hp he hc, State.onBlock_of_fault]
  · rw [Block.checkReady_of_unsettled _ hp he hc hs, State.onBlock_of_fault]

/-- Settles O25: only the check of the phase is left, and START (in IDLE) or READ (on a held bus) decides it. -/
theorem phaseTableDecidesTransfers : Obligations.PhaseTableDecidesTransfers := by
  intro i c k s h hr
  rw [exec_of_ready_transfer h hr]
  refine ⟨fun hi => ?_, fun hm => ?_, fun hh => ?_⟩
  · rw [Block.checkPhase_of_idle _ hi]
    cases c.sta <;> simp
  · rw [Block.checkPhase_of_heldM _ hm]
    cases c.rd <;> simp
  · rw [Block.checkPhase_of_heldS _ hh]
    cases c.rd <;> simp

/-- Settles O26: the reserved bits are checked first, then the combination, and neither check reads the state. -/
theorem staticallyIllegalCommandsStopInEveryState : Obligations.StaticallyIllegalCommandsStopInEveryState := by
  intro c s
  rw [exec_decodeWrite_command]
  refine ⟨fun h => ?reserved, fun h2 h1 => ?static, rfl, rfl, fun _ => rfl, fun _ => rfl⟩
  case reserved => rw [Block.writeCommandRegister_of_reserved _ (reserved_iff.mpr h), State.onBlock_of_refused]
  case static =>
    have unreserved : c &&& 0x06 = 0 := not_not.mp (mt reserved_iff.mp (by rw [h2, h1]; decide))
    refine ⟨fun h => ?_, fun hsta hrd hwr hack hsto => ?_, fun hsta hrd hwr hsto hack => ?_⟩
    · rw [Block.writeCommandRegister_of_static_stop _ unreserved fun k => CommandBits.checkStatic_of_illegal k h,
        State.onBlock_of_refused]
    · rw [Block.writeCommandRegister_of_static_stop _ unreserved fun k =>
        CommandBits.checkStatic_of_unfoldedStop k hsta hrd hwr hack hsto, State.onBlock_of_fault]
    · rw [Block.writeCommandRegister_of_static_stop _ unreserved fun k =>
        CommandBits.checkStatic_of_ackedReadStop k hsta hrd hwr hsto hack, State.onBlock_of_fault]

/-- Settles O27: an accepted write leaves IF as its bit 0 says, and the two writes go through the same checks. -/
theorem iackBitClearsTheFlagOfAcceptedCommands : Obligations.IackBitClearsTheFlagOfAcceptedCommands := by
  constructor
  · intro c s t h
    obtain ⟨b, hb, rfl⟩ := State.onBlock_next.mp ((exec_decodeWrite_command c s).symm.trans h)
    exact Block.writeCommandRegister_irqFlag _ hb
  · intro c s
    exact (exec_decodeWrite_command _ s).trans <| (onBlock_writeCommandRegister_iack c s).trans <|
      congrArg _ (exec_decodeWrite_command _ s).symm

/-- Settles O21: both rows have a meaning without a check. -/
theorem noTransferCommandsRunInEveryState : Obligations.NoTransferCommandsRunInEveryState :=
  ⟨⟨rfl, rfl⟩, fun _ => ⟨rfl, rfl⟩⟩

/-- Settles O29: no STOP part, and the phase is decided by the acknowledge and the direction bit. -/
theorem addressPhaseCompletes : Obligations.AddressPhaseCompletes := by
  intro b byte a d hp
  rw [Block.complete_without_stop_eq a d hp rfl, Block.beforeStop_phase_of_address]
  simp [Command.symbols]

/-- Settles O30: without START the block drives next whatever the acknowledge, so the STOP part is reached. -/
theorem payloadWriteCompletes : Obligations.PayloadWriteCompletes := by
  intro b byte a d
  constructor
  · intro hp
    rw [Block.complete_without_stop_eq a d hp rfl, Block.beforeStop_phase_of_payload]
    simp [Command.symbols]
  · intro hp
    rw [Block.complete_with_stop_eq a d hp rfl (by simp [Block.beforeStop_phase_of_payload])]
    simp [Command.symbols]

/-- Settles O31: the block's acknowledge of the byte decides who drives next, so the folded STOP is reached. -/
theorem readCompletes : Obligations.ReadCompletes := by
  intro b a d
  constructor
  · intro hp
    rw [Block.complete_without_stop_eq a d hp rfl, Block.beforeStop_phase_of_read]
    simp [Command.symbols]
  · intro hp
    rw [Block.complete_with_stop_eq a d hp rfl (by simp [Block.beforeStop_phase_of_read])]
    simp [Command.symbols]

/-- Settles O32: nothing comes before the STOP, so the phase it finds is that of the acceptance. -/
theorem stopCompletes : Obligations.StopCompletes := by
  intro b a d hm hp
  rw [Block.complete_with_stop_eq a d hp rfl (by simp [Block.beforeStop_phase_of_stop, hm])]
  simp [Command.symbols]

/-- Settles O33: the STOP part finds the phase the address byte leaves. -/
theorem startWriteStopCompletesOrFindsTheSlaveHoldingTheBus :
    Obligations.StartWriteStopCompletesOrFindsTheSlaveHoldingTheBus := by
  intro b byte a d hp
  have phase := Block.beforeStop_phase_of_address true byte a d b
  constructor
  · intro held
    rw [if_pos held] at phase
    rw [Block.complete_finds_slave a d hp rfl phase]
    simp [Command.symbols]
  · intro free
    rw [if_neg free] at phase
    rw [Block.complete_with_stop_eq a d hp rfl (by simp [phase])]
    simp [Command.symbols]

end Sys2Proof.Machine
end

section
/-! SUPPORT. The obligations of 42_byte_engine.md that speak of completions: what a completion that stops has found, and
what every completion leaves alone, sets and appends. -/

namespace Sys2Proof.Machine

/-! ## Completions that stop (42_byte_engine.md R161) -/

/-- Everything a completion that stops can have found: the STOP part of the pending command, with the slave driving. -/
theorem Block.complete_fault {a : Bool} {d : Byte} {b : Block} {f : Fault} (h : b.complete a d = .fault f) :
    ∃ p, b.pending = some p ∧ p.sto = true ∧ (b.beforeStop p a d).phase = .heldS ∧
      f = .slaveHoldsBus (p.symbols a d) := by
  cases hp : b.pending with
  | none => simp [Block.complete, hp] at h
  | some p =>
    cases hs : p.sto with
    | false => simp [Block.complete_without_stop a d hp hs] at h
    | true =>
      by_cases hh : (b.beforeStop p a d).phase = .heldS
      · rw [Block.complete_finds_slave a d hp hs hh] at h
        cases h
        exact ⟨p, rfl, hs, hh, rfl⟩
      · simp [Block.complete_with_stop a d hp hs hh] at h

theorem Block.complete_ne_refused (a : Bool) (d : Byte) (b : Block) (r : Refusal) : b.complete a d ≠ .refused r := by
  unfold Block.complete
  split
  · simp
  · dsimp only
    split_ifs <;> simp

/-- The admitted commands with a STOP: READ with ACK-suppress, STOP alone, START with WRITE, and WRITE
(41_commands.md R131 to R134). -/
theorem Command.Admitted.with_stop {p : Command} (h : p.Admitted) (hs : p.sto = true) :
    p = ⟨false, true, true, none, true⟩ ∨ p = ⟨false, true, false, none, false⟩ ∨
      (∃ byte, p = ⟨true, true, false, some byte, false⟩) ∨ ∃ byte, p = ⟨false, true, false, some byte, false⟩ := by
  obtain ⟨sta, sto, rd, wr, ack⟩ := p
  cases wr <;> simp_all [Command.Admitted, Command.bits, CommandBits.admitted, CommandBits.startWrite,
    CommandBits.write, CommandBits.read, CommandBits.readNackStop, CommandBits.stop, CommandBits.startWriteStop,
    CommandBits.writeStop]

/-- Of the admitted commands with a STOP only START+WRITE+STOP can hand the bus to the slave: the final READ suppresses
its acknowledge, STOP alone is accepted in HELD_M only, and a WRITE without START leaves HELD_M. -/
theorem Block.Inv.startWriteStop_of_slave_driving {b : Block} (h : b.Inv) {p : Command} {a : Bool} {d : Byte}
    (hp : b.pending = some p) (hs : p.sto = true) (hh : (b.beforeStop p a d).phase = .heldS) :
    ∃ byte, p = ⟨true, true, false, some byte, false⟩ ∧ byte.getLsbD 0 = true ∧ a = false := by
  obtain ⟨-, -, hadm, hallows⟩ := h.pending p hp
  obtain rfl | rfl | ⟨byte, rfl⟩ | ⟨byte, rfl⟩ := hadm.with_stop hs
  · simp [Block.beforeStop_phase_of_read] at hh
  · rw [Block.beforeStop_phase_of_stop] at hh
    simp [hh, Phase.Allows, Command.bits] at hallows
  · rw [Block.beforeStop_phase_of_address] at hh
    split at hh
    next held =>
      obtain ⟨ha, hbit⟩ := held
      exact ⟨byte, rfl, hbit, ha⟩
    next => cases hh
  · simp [Block.beforeStop_phase_of_payload] at hh

/-- Settles O36: the STOP part is the only one that stops, and the invariant leaves it one command to be reached in
HELD_S by. -/
theorem onlyStartWriteStopFaultsAtCompletion : Obligations.OnlyStartWriteStopFaultsAtCompletion := by
  constructor
  · intro b a d hinv
    refine ⟨b.complete_ne_refused a d, fun f h => ?_⟩
    obtain ⟨p, hp, hs, hh, rfl⟩ := Block.complete_fault h
    obtain ⟨byte, rfl, hbit, rfl⟩ := hinv.startWriteStop_of_slave_driving hp hs hh
    exact ⟨byte, hp, hbit, rfl, by simp [Command.symbols]⟩
  · intro b p a d hp hs hh
    rw [Block.complete_finds_slave a d hp hs hh, Block.beforeStop_trace, List.drop_left]

theorem stepKept_of_fault {s : State} {f : Fault} (h : step s = .fault f) :
    stepKept s = s.withBlock (s.block.stopWith f) := by
  rw [stepKept, h, State.keep]

/-- Settles O37: the fault carries the symbols, and recording it appends them. -/
theorem completionFaultKeepsTheSymbolsEmitted : Obligations.CompletionFaultKeepsTheSymbolsEmitted := by
  intro s byte d rest hf ht hbit hp
  obtain ⟨faults, -⟩ := startWriteStopCompletesOrFindsTheSlaveHoldingTheBus s.block byte false d hp
  have hstep : step s = .fault (.slaveHoldsBus (.start :: sentBits byte ++ [.sack false])) := by
    rw [step_of_complete_turn hf ht, faults ⟨rfl, hbit⟩, State.onBlock_of_fault]
  rw [stepKept_of_fault hstep, Block.stopWith, List.append_assoc]
  rfl

/-! ## Completions that end (42_byte_engine.md R152, R158, R164) -/

/-- Settles O28: both byte engines go through the bits of the byte from bit 7 down. -/
theorem bytesGoMostSignificantBitFirst : Obligations.BytesGoMostSignificantBitFirst := fun _ => ⟨rfl, rfl⟩

/-- What a completion may change besides the bookkeeping of R158 is what the parts of the command do. -/
theorem Block.complete_pending_frame {p : Command} {a : Bool} {d : Byte} {b t : Block} (hp : b.pending = some p)
    (h : b.complete a d = .next t) : t = { b with
      pending := none, irqFlag := true, phase := t.phase, rxack := t.rxack, rxr := t.rxr, trace := t.trace } := by
  rw [Block.complete_pending_next hp h, Block.beforeStop_eq]
  cases p.sto <;> rfl

/-- Settles O34: nothing is pending after a completion, and the two flags are read from the pending command. -/
theorem completionClearsPendingAndSetsTheFlag : Obligations.CompletionClearsPendingAndSetsTheFlag := by
  intro b t a d hne h
  obtain ⟨p, hp⟩ := Option.ne_none_iff_exists'.mp hne
  have cleared : t.pending = none := Block.complete_pending_cleared hp h
  refine ⟨Block.complete_pending_frame hp h, fun q => tipFlag_of_none cleared, fun q x hbit => ?_⟩
  rw [busyFlag_of_inProgress x hbit, cleared, Option.isSome_none]

@[simp] theorem sentBits_length (byte : Byte) : (sentBits byte).length = 8 := rfl

@[simp] theorem receivedBits_length (d : Byte) : (receivedBits d).length = 8 := rfl

theorem Command.symbols_length (p : Command) (a : Bool) (d : Byte) : (p.symbols a d).length =
    (if p.sta then 1 else 0) + (if p.wr.isSome then 9 else 0) + (if p.rd then 9 else 0) := by
  unfold Command.symbols
  cases p.sta <;> cases p.wr <;> cases p.rd <;> simp

/-- An admitted command moves at most one byte (41_commands.md R124). -/
theorem Command.Admitted.writes_or_reads {p : Command} (h : p.Admitted) : p.wr = none ∨ p.rd = false := by
  cases hs : p.sto
  · obtain ⟨byte, rfl⟩ | ⟨byte, rfl⟩ | rfl := h.without_stop hs <;> simp
  · obtain rfl | rfl | ⟨byte, rfl⟩ | ⟨byte, rfl⟩ := h.with_stop hs <;> simp

/-- Settles O35: the symbols are those before the STOP and the STOP's own, and at most one byte is among them. -/
theorem completionAppendsTheStatedNumberOfSymbols : Obligations.CompletionAppendsTheStatedNumberOfSymbols := by
  intro b t p a d hp hadm h
  refine ⟨p.symbols a d ++ if p.sto then [.stop] else [], ?_, ?_⟩
  · rw [Block.complete_trace hp h, List.append_assoc]
  · have stop_length : (if p.sto then [Symbol.stop] else []).length = if p.sto then 1 else 0 := by
      cases p.sto <;> rfl
    rw [List.length_append, Command.symbols_length, stop_length]
    obtain hw | hr := hadm.writes_or_reads
    · simp [hw]
    · simp [hr]

end Sys2Proof.Machine
end

section
/-! SUPPORT. The host inside a procedure, the two steps of a poll (43_status_polling.md R181), and the poll on a slave
that never answers (42_byte_engine.md R163). -/

namespace Sys2Proof.Machine

/-! ## The host inside a procedure -/

/-- The machine with the host at this point of a procedure. -/
def State.within (s : State) (q : Proc) : State := { s with host := { s.host with proc := some q } }

theorem hostStep_of_procedure {s : State} {q : Proc} (hq : s.host.proc = some q) : s.hostStep = s.runProc q := by
  simp only [State.hostStep, hq]

theorem step_runs_procedure_of_empty_schedule {s : State} {q : Proc} (hf : s.block.fault = none)
    (ht : s.turns = []) (hq : s.host.proc = some q) : step s = s.runProc q :=
  (step_of_empty_schedule hf ht).trans (hostStep_of_procedure hq)

/-- An action after which the innermost procedure goes on to another task. -/
theorem runProc_goto {s u : State} {q : Proc} {task : Task} (ha : s.act (q.task.action s.params) = .next u)
    (hr : q.task.resume u.params u.host.rdata = .goto task) :
    s.runProc q = .next (u.within { task := task, callers := q.callers }) := by
  rw [State.runProc, ha, mapNext, State.proceed, hr]
  rfl

/-! ## The steps of a poll -/

/-- P_WAIT takes the delay and goes on to P_READ. -/
theorem runProc_poll_wait (s : State) (n : Nat) (k : AfterPoll) (callers : List Frame) :
    s.runProc { task := .poll .wait n k, callers := callers } =
      .next ((s.delay s.params.tPoll).within { task := .poll .read n k, callers := callers }) :=
  runProc_goto rfl rfl

/-- While TIP reads 1 and there is no limit, a status read sends the poll back to P_WAIT. -/
theorem pollResume_of_inProgress {x : Byte} (hx : (TransactionStatus.ofByte x).inProgress = true) (n : Nat)
    (k : AfterPoll) : pollResume none n k x = .goto (.poll .wait n k) := by
  simp [pollResume, hx]

/-- P_READ while TIP reads 1 and there is no limit. -/
theorem runProc_poll_read_of_tip {s : State} (htip : tipFlag s.params s.block = true)
    (hl : s.params.pollLimit = none) (n : Nat) (k : AfterPoll) (callers : List Frame) :
    s.runProc { task := .poll .read n k, callers := callers } =
      .next ((s.answerDrawn (statusByte s.params s.block s.nextDraw)).within
        { task := .poll .wait (n + 1) k, callers := callers }) := by
  refine runProc_goto (exec_rdSr s) ?_
  have inProgress : (TransactionStatus.ofByte (statusByte s.params s.block s.nextDraw)).inProgress = true :=
    (statusByte_bit1 s.params s.block s.nextDraw).trans htip
  simp only [Task.resume, State.answerDrawn_params, State.answerDrawn_host, hl,
    pollResume_of_inProgress inProgress]

/-! ## A poll that never returns -/

/-- Where every state with `I` steps to one with `I`, the machine runs on for any number of steps and keeps `I`. -/
theorem runFor_of_step_keeps {I : State → Prop} (keeps : ∀ s, I s → ∃ t, step s = .next t ∧ I t) (n : Nat) :
    ∀ s, I s → ∃ t, runFor n s = .next t ∧ I t := by
  induction n with
  | zero => exact fun s hs => ⟨s, runFor_zero s, hs⟩
  | succ n ih =>
    intro s hs
    obtain ⟨u, hstep, hu⟩ := keeps s hs
    obtain ⟨t, hrun, ht⟩ := ih u hu
    exact ⟨t, (runFor_next hstep n).trans hrun, ht⟩

/-- The host polls, without a limit, on the pending command `p`, which TIP shows, and no completion is scheduled. -/
structure State.PollsInVain (p : Command) (k : AfterPoll) (callers : List Frame) (results : List Result)
    (s : State) : Prop where
  running : s.block.fault = none
  silent : s.turns = []
  polling : ∃ part m, s.host.proc = some { task := .poll part m k, callers := callers }
  pending : s.block.pending = some p
  unbounded : s.params.pollLimit = none
  tip : tipFlag s.params s.block = true
  results_eq : s.host.results = results

/-- Neither the delay nor the status read touches the pending command, so TIP reads 1 again. -/
theorem State.PollsInVain.step_keeps {p : Command} {k : AfterPoll} {callers : List Frame} {results : List Result}
    (s : State) (h : s.PollsInVain p k callers results) :
    ∃ t, step s = .next t ∧ t.PollsInVain p k callers results := by
  obtain ⟨hf, ht, ⟨part, m, hq⟩, hp, hl, htip, hr⟩ := h
  rw [step_runs_procedure_of_empty_schedule hf ht hq]
  cases part with
  | wait => exact ⟨_, runProc_poll_wait s m k callers, hf, ht, ⟨.read, m, rfl⟩, hp, hl, htip, hr⟩
  | read =>
    exact ⟨_, runProc_poll_read_of_tip htip hl m k callers, hf, ht, ⟨.wait, m + 1, rfl⟩, hp, hl, htip, hr⟩

/-- Settles O50: every step of the poll leaves it polling in vain. -/
theorem pollOnAnUnresponsiveSlaveHangs : Obligations.PollOnAnUnresponsiveSlaveHangs := by
  intro s p part m k callers hf ht hq hp hl hcovered n
  have htip : tipFlag s.params s.block = true := by
    simpa [tipFlag_of_pending hp, or_assoc] using hcovered
  obtain ⟨t, hrun, h⟩ := runFor_of_step_keeps State.PollsInVain.step_keeps n s
    ⟨hf, ht, ⟨part, m, hq⟩, hp, hl, htip, rfl⟩
  obtain ⟨part', m', hq'⟩ := h.polling
  exact ⟨t, part', m', hrun, h.pending, hq', h.results_eq⟩

end Sys2Proof.Machine
end

section
/-! SUPPORT. What one status read of a poll tells the host and where the host goes on (43_status_polling.md R180 to R184),
whoever called the poll, and the obligations about a single step of a poll. -/

namespace Sys2Proof.Machine

/-! ## What the host derives from a status byte (43_status_polling.md R180) -/

theorem ofByte_statusByte_inProgress (p : Config.Params) (b : Block) (x : Byte) :
    (TransactionStatus.ofByte (statusByte p b x)).inProgress = tipFlag p b :=
  statusByte_bit1 p b x

theorem ofByte_statusByte_ackReceived {b : Block} {a : Bool} (hp : b.pending = none) (ha : b.rxack = some a)
    (p : Config.Params) (x : Byte) : (TransactionStatus.ofByte (statusByte p b x)).ackReceived = !a := by
  rw [TransactionStatus.ofByte, statusByte_bit7, rxackFlag_of_known _ hp ha]

/-- Settles O47: bits 1 and 7 of a status byte are TIP and RxACK. -/
theorem transactionStatusIsDerivedFromTwoBits : Obligations.TransactionStatusIsDerivedFromTwoBits :=
  ⟨fun _ => rfl, fun p b x =>
    ⟨ofByte_statusByte_inProgress p b x, fun _ hp ha => ofByte_statusByte_ackReceived hp ha p x⟩⟩

/-! ## Where the host goes after an action of a procedure -/

/-- The machine after the host has followed the decision `c` of its innermost procedure. -/
def State.followed (s : State) (callers : List Frame) (c : Control) : State :=
  { s with host := s.host.follow (c.follow callers) }

/-- The machine after the host's outermost procedure has returned `r`. -/
def State.returned (s : State) (r : Result) : State :=
  { s with host := { s.host with proc := none, results := s.host.results ++ [r] } }

theorem State.followed_program (s : State) (callers : List Frame) (c : Control) :
    (s.followed callers c).host.program = s.host.program := by
  unfold State.followed HostState.follow
  cases c.follow callers <;> rfl

theorem State.followed_goto (s : State) (callers : List Frame) (task : Task) :
    s.followed callers (.goto task) = s.within { task := task, callers := callers } := rfl

theorem State.followed_ret (s : State) (r : Result) : s.followed [] (.ret r) = s.returned r := rfl

/-- No caller handles a `Timeout` (43_status_polling.md R184). -/
theorem returnTo_timeout (callers : List Frame) : returnTo .timeout callers = .done .timeout := by
  induction callers with
  | nil => rfl
  | cons frame callers ih => cases frame <;> exact ih

theorem State.followed_timeout (s : State) (callers : List Frame) :
    s.followed callers (.ret .timeout) = s.returned .timeout := by
  rw [State.followed, Control.follow, returnTo_timeout]
  rfl

/-! ## The host's turn inside a procedure -/

/-- In the host's turn, scheduled or not, the host inside a procedure runs its next action. -/
theorem step_runs_procedure {s : State} {q : Proc} (hf : s.block.fault = none)
    (ht : s.turns = [] ∨ s.turns.head? = some .host) (hq : s.host.proc = some q) :
    step s = (s.withTurns s.turns.tail).runProc q := by
  cases hl : s.turns with
  | nil =>
    have unscheduled : s.withTurns [] = s := by rw [← hl]; rfl
    rw [List.tail_nil, unscheduled, step_runs_procedure_of_empty_schedule hf hl hq]
  | cons turn rest =>
    obtain rfl : turn = .host := by simpa [hl] using ht
    exact (step_of_host_turn hf hl).trans (hostStep_of_procedure (s := s.withTurns rest) hq)

/-! ## The step of a poll -/

/-- The status byte a read returns next (40_register_access.md R106). -/
def State.status (s : State) : Byte := statusByte s.params s.block s.nextDraw

theorem State.status_inProgress (s : State) :
    (TransactionStatus.ofByte s.status).inProgress = tipFlag s.params s.block :=
  ofByte_statusByte_inProgress ..

/-! The decision after a status read (43_status_polling.md R181, R184). -/

section
variable {x : Byte} {n : Nat} {k : AfterPoll}

theorem pollResume_of_ended (hx : (TransactionStatus.ofByte x).inProgress = false) (limit : Option Nat) :
    pollResume limit n k x = k.resume (TransactionStatus.ofByte x).ackReceived := by
  simp [pollResume, hx]

variable (hx : (TransactionStatus.ofByte x).inProgress = true)
include hx

theorem pollResume_of_limit {limit : Nat} (hn : limit ≤ n) : pollResume (some limit) n k x = .ret .timeout := by
  simp [pollResume, hx, hn]

theorem pollResume_below_limit {limit : Option Nat} (hl : ∀ m, limit = some m → n < m) :
    pollResume limit n k x = .goto (.poll .wait n k) := by
  cases limit with
  | none => exact pollResume_of_inProgress hx n k
  | some m => simp [pollResume, hx, Nat.not_le.mpr (hl m rfl)]

end

/-! P_READ in the state of the poll (43_status_polling.md R181). -/

section
variable (s : State) (n : Nat) (k : AfterPoll) (callers : List Frame)

/-- P_READ reads the status and decides by it. -/
theorem runProc_poll_read : s.runProc { task := .poll .read n k, callers := callers } =
    .next ((s.answerDrawn s.status).followed callers (pollResume s.params.pollLimit (n + 1) k s.status)) := rfl

variable {s}

/-- P_READ while TIP reads 0: the poll ends with the acknowledge (43_status_polling.md R181). -/
theorem runProc_poll_read_of_ended (htip : tipFlag s.params s.block = false) :
    s.runProc { task := .poll .read n k, callers := callers } = .next ((s.answerDrawn s.status).followed callers
      (k.resume (TransactionStatus.ofByte s.status).ackReceived)) := by
  rw [runProc_poll_read, pollResume_of_ended (s.status_inProgress.trans htip)]

/-- P_READ while TIP reads 1, at the limit (43_status_polling.md R184). -/
theorem runProc_poll_read_of_limit (htip : tipFlag s.params s.block = true) {limit : Nat}
    (hl : s.params.pollLimit = some limit) (hn : limit ≤ n + 1) :
    s.runProc { task := .poll .read n k, callers := callers } =
      .next ((s.answerDrawn s.status).returned .timeout) := by
  rw [runProc_poll_read, hl, pollResume_of_limit (s.status_inProgress.trans htip) hn, State.followed_timeout]

/-- P_READ while TIP reads 1, below the limit or without one (43_status_polling.md R181, R184). -/
theorem runProc_poll_read_below_limit (htip : tipFlag s.params s.block = true)
    (hl : ∀ limit, s.params.pollLimit = some limit → n + 1 < limit) :
    s.runProc { task := .poll .read n k, callers := callers } =
      .next ((s.answerDrawn s.status).within { task := .poll .wait (n + 1) k, callers := callers }) := by
  rw [runProc_poll_read, pollResume_below_limit (s.status_inProgress.trans htip) hl, State.followed_goto]

end

/-- Settles O48: P_WAIT delays, P_READ reads, and neither is ever refused. -/
theorem pollingNeverStopsAndKeepsTheBlock : Obligations.PollingNeverStopsAndKeepsTheBlock := by
  intro s part n k callers hf ht hq
  rw [step_runs_procedure hf ht hq]
  cases part with
  | wait => exact ⟨_, runProc_poll_wait .., rfl, rfl⟩
  | read => exact ⟨_, runProc_poll_read .., rfl, State.followed_program ..⟩

theorem tipFlag_of_covered {q : Config.Params} {b : Block} {p : Command} (hp : b.pending = some p)
    (hcovered : q.tipScope = .allCommands ∨ p.rd = true ∨ p.wr.isSome = true) : tipFlag q b = true := by
  simpa [tipFlag_of_pending hp, or_assoc] using hcovered

/-- Settles O51: TIP reads 1, so the read either meets the limit or goes back to P_WAIT. -/
theorem pollTimesOutAtItsLimit : Obligations.PollTimesOutAtItsLimit := by
  intro s p n k callers hf ht hq hp hcovered
  have htip : tipFlag s.params s.block = true := tipFlag_of_covered hp hcovered
  rw [step_runs_procedure hf ht hq]
  constructor
  · intro limit hl hn
    exact ⟨_, runProc_poll_read_of_limit n k callers htip hl hn, rfl, rfl, rfl, rfl⟩
  · intro hl
    exact ⟨_, runProc_poll_read_below_limit n k callers htip hl, rfl, rfl, rfl, rfl⟩

end Sys2Proof.Machine
end

section
/-! SUPPORT. A poll during which the pending command completes (43_status_polling.md R183): the poll goes round while the
command is pending, the engine completes it between two of its actions, and the next status read ends the poll. -/

namespace Sys2Proof.Machine

/-! ## A completion and the settle count -/

theorem Block.beforeStop_delay (p : Command) (a : Bool) (d : Byte) (b : Block) (n : Nat) :
    (b.delay n).beforeStop p a d = (b.beforeStop p a d).delay n := by
  unfold Block.beforeStop Block.readPart Block.writePart Block.startPart
  cases p.sta <;> cases p.wr <;> cases p.rd <;> rfl

/-- A completion reads nothing that a delay changes. -/
theorem Block.complete_delay {a : Bool} {d : Byte} {b t : Block} (h : b.complete a d = .next t) (n : Nat) :
    (b.delay n).complete a d = .next (t.delay n) := by
  obtain ⟨hp, rfl⟩ | ⟨p, hp, ⟨hs, rfl⟩ | ⟨hs, hh, rfl⟩⟩ := Block.complete_next h
  · simp [Block.complete, hp]
  · rw [Block.complete_without_stop a d (b := b.delay n) hp hs, Block.beforeStop_delay]
    rfl
  · have free : ((b.delay n).beforeStop p a d).phase ≠ .heldS := by rwa [Block.beforeStop_delay]
    rw [Block.complete_with_stop a d (b := b.delay n) hp hs free, Block.beforeStop_delay]
    rfl

theorem Block.complete_rxack {p : Command} {a : Bool} {d : Byte} {b t : Block} (hp : b.pending = some p)
    (h : b.complete a d = .next t) : t.rxack = p.wr.map fun _ => a := by
  rw [Block.complete_pending_next hp h, ← Block.beforeStop_rxack p a d b]
  split <;> rfl

/-! ## The poll before the completion -/

/-- The host polls, without a limit, on the pending command `p`, which TIP shows and which completes with `a` and `d`
when its turn comes. The schedule is `turns`. -/
structure State.AwaitsCompletion (p : Command) (a : Bool) (d : Byte) (results : List Result) (part : PollAt)
    (turns : List Turn) (s : State) : Prop where
  running : s.block.fault = none
  schedule : s.turns = turns
  polling : ∃ n, s.host.proc = some { task := .poll part n .answer, callers := [] }
  pending : s.block.pending = some p
  completes : ∃ b, s.block.complete a d = .next b
  unbounded : s.params.pollLimit = none
  tip : tipFlag s.params s.block = true
  results_eq : s.host.results = results

/-- The host polls, the command `p` has completed with the acknowledge `a`, and the schedule is used up. -/
structure State.HasCompletion (p : Command) (a : Bool) (results : List Result) (part : PollAt) (s : State) : Prop where
  running : s.block.fault = none
  silent : s.turns = []
  polling : ∃ n, s.host.proc = some { task := .poll part n .answer, callers := [] }
  completed : s.block.pending = none
  acknowledge : s.block.rxack = p.wr.map fun _ => a
  results_eq : s.host.results = results

section
variable {p : Command} {a : Bool} {d : Byte} {results : List Result} {part : PollAt} {turns : List Turn} {s : State}

theorem State.AwaitsCompletion.wait_step (h : s.AwaitsCompletion p a d results .wait (.host :: turns)) :
    ∃ t, step s = .next t ∧ t.AwaitsCompletion p a d results .read turns := by
  obtain ⟨hf, ht, ⟨n, hq⟩, hp, ⟨b, hb⟩, hl, htip, hr⟩ := h
  rw [step_runs_procedure hf (.inr (by rw [ht]; rfl)) hq, ht]
  exact ⟨_, runProc_poll_wait .., hf, rfl, ⟨n, rfl⟩, hp, ⟨_, Block.complete_delay hb _⟩, hl, htip, hr⟩

theorem State.AwaitsCompletion.read_step (h : s.AwaitsCompletion p a d results .read (.host :: turns)) :
    ∃ t, step s = .next t ∧ t.AwaitsCompletion p a d results .wait turns := by
  obtain ⟨hf, ht, ⟨n, hq⟩, hp, hb, hl, htip, hr⟩ := h
  rw [step_runs_procedure hf (.inr (by rw [ht]; rfl)) hq, ht]
  exact ⟨_, runProc_poll_read_of_tip (s := s.withTurns turns) htip hl .., hf, rfl, ⟨n + 1, rfl⟩, hp, hb, hl, htip, hr⟩

/-- Each status read before the completion sends the poll round once, in two steps. -/
theorem State.AwaitsCompletion.rounds (j : Nat) :
    ∀ s : State, s.AwaitsCompletion p a d results .wait (List.replicate (2 * j) .host ++ turns) →
      ∃ t, t.AwaitsCompletion p a d results .wait turns ∧ ∀ k, runFor (2 * j + k) s = runFor k t := by
  induction j with
  | zero => exact fun s h => ⟨s, h, fun k => by rw [Nat.mul_zero, Nat.zero_add]⟩
  | succ j ih =>
    intro s h
    obtain ⟨u, hu, h⟩ := h.wait_step
    obtain ⟨v, hv, h⟩ := h.read_step
    obtain ⟨t, h, hrun⟩ := ih v h
    refine ⟨t, h, fun k => ?_⟩
    calc runFor (2 * (j + 1) + k) s
      _ = runFor (2 * j + k + 2) s := by rw [Nat.mul_succ, Nat.add_right_comm]
      _ = runFor (2 * j + k + 1) u := runFor_next hu _
      _ = runFor (2 * j + k) v := runFor_next hv _
      _ = runFor k t := hrun k

/-! ## The completion and the poll after it -/

theorem State.AwaitsCompletion.complete_step (h : s.AwaitsCompletion p a d results part [.complete a d]) :
    ∃ t, step s = .next t ∧ t.HasCompletion p a results part := by
  obtain ⟨hf, ht, hq, hp, ⟨b, hb⟩, -, -, hr⟩ := h
  obtain ⟨-, -, hfault⟩ := Block.complete_frame hb
  rw [step_of_complete_turn hf ht, hb]
  exact ⟨_, State.onBlock_of_next .., hfault.trans hf, rfl, hq, Block.complete_pending_cleared hp hb,
    Block.complete_rxack hp hb, hr⟩

theorem State.HasCompletion.wait_step (h : s.HasCompletion p a results .wait) :
    ∃ t, step s = .next t ∧ t.HasCompletion p a results .read := by
  obtain ⟨hf, ht, ⟨n, hq⟩, hp, ha, hr⟩ := h
  rw [step_runs_procedure_of_empty_schedule hf ht hq]
  exact ⟨_, runProc_poll_wait .., hf, ht, ⟨n, rfl⟩, hp, ha, hr⟩

/-- The read after the completion finds TIP 0 and RxACK, which a WRITE has set. -/
theorem State.HasCompletion.read_step (h : s.HasCompletion p a results .read) :
    ∃ t r, step s = .next t ∧ t.block.pending = none ∧ t.host.proc = none ∧ t.host.results = results ++ [.ack r] ∧
      (p.wr.isSome = true → r = !a) := by
  obtain ⟨hf, ht, ⟨n, hq⟩, hp, ha, rfl⟩ := h
  refine ⟨(s.answerDrawn s.status).returned (.ack (TransactionStatus.ofByte s.status).ackReceived), _, ?_, hp, rfl, rfl,
    fun hw => ?_⟩
  · rw [step_runs_procedure_of_empty_schedule hf ht hq, runProc_poll_read_of_ended n _ _ (tipFlag_of_none hp),
      AfterPoll.resume, State.followed_ret]
  · obtain ⟨byte, hw⟩ := Option.isSome_iff_exists.mp hw
    exact ofByte_statusByte_ackReceived hp (by rw [ha, hw, Option.map_some]) ..

end

/-- Settles O49: after `j` rounds the completion comes before the P_WAIT or between it and its P_READ, and the read that
follows ends the poll. -/
theorem pollReturnsAfterTheCompletion : Obligations.PollReturnsAfterTheCompletion := by
  intro s p a d n j m hf hq hp hl hcovered hcompletes hm ht
  have start : s.AwaitsCompletion p a d s.host.results .wait (List.replicate m .host ++ [.complete a d]) :=
    ⟨hf, ht, ⟨n, hq⟩, hp, hcompletes, hl, tipFlag_of_covered hp hcovered, rfl⟩
  have reaches : ∃ w, w.HasCompletion p a s.host.results .read ∧ ∀ k, runFor (2 * j + (k + 2)) s = runFor k w := by
    obtain rfl | rfl := hm
    · obtain ⟨u, h, hrun⟩ := State.AwaitsCompletion.rounds j s start
      obtain ⟨v, hv, h⟩ := h.complete_step
      obtain ⟨w, hw, h⟩ := h.wait_step
      exact ⟨w, h, fun k => by rw [hrun, runFor_next hv, runFor_next hw]⟩
    · rw [List.replicate_add, List.append_assoc] at start
      obtain ⟨u, h, hrun⟩ := State.AwaitsCompletion.rounds j s start
      obtain ⟨v, hv, h⟩ := h.wait_step
      obtain ⟨w, hw, h⟩ := h.complete_step
      exact ⟨w, h, fun k => by rw [hrun, runFor_next hv, runFor_next hw]⟩
  obtain ⟨w, h, hrun⟩ := reaches
  obtain ⟨t, r, hstep, hreturn⟩ := h.read_step
  exact ⟨t, r, (hrun 1).trans (runFor_next hstep 0), hreturn⟩

end Sys2Proof.Machine
end

section
/-! SUPPORT. The calls of the host, the steps of `configure` (44_transactions.md R201, R202), and the call that is
refused before any access (R205). -/

namespace Sys2Proof.Machine

/-! ## A call of the host -/

theorem runOp_call {s : State} {c : Call} {q : Proc} (h : c.begin s.params = .ok q) :
    s.runOp (.call c) = s.runProc q := by
  simp only [State.runOp, h]

theorem runOp_call_of_refused {s : State} {c : Call} {r : Refusal} (h : c.begin s.params = .error r) :
    s.runOp (.call c) = .refused r := by
  simp only [State.runOp, h]

theorem beginWrite_of_fits {p : Config.Params} {data : List Byte} (hwidth : data.length ≤ 254)
    (hcap : data.length ≤ p.bufCap.toNat) (a : Byte) (sendStop : Bool) (callers : List Frame) :
    beginWrite p a data sendStop callers = .ok { task := .writeSend a data sendStop, callers := callers } :=
  if_pos ⟨hwidth, hcap⟩

theorem beginWrite_of_too_long {p : Config.Params} {data : List Byte}
    (h : 254 < data.length ∨ p.bufCap.toNat < data.length) (a : Byte) (sendStop : Bool) (callers : List Frame) :
    beginWrite p a data sendStop callers = .error .payloadTooLong :=
  if_neg (by omega)

theorem stepKept_of_refused {s : State} {r : Refusal} (h : step s = .refused r) :
    stepKept s = s.withBlock (s.block.refuseWith r) := by
  rw [stepKept, h, State.keep]

/-- Settles O57: the bounds are checked when the call begins, and the refusal has no code to record. -/
theorem oversizedWriteIsRefusedBeforeAnyAccess : Obligations.OversizedWriteIsRefusedBeforeAnyAccess := by
  intro s addr data sendStop rest hf hq ht hp hlong
  have refused : step s = .refused .payloadTooLong :=
    (step_runs_program_of_empty_schedule hf hq hp ht).trans
      (runOp_call_of_refused (beginWrite_of_too_long hlong addr sendStop []))
  exact ⟨refused, (stepKept_of_refused refused).trans s.withBlock_self⟩

/-! ## An action of a procedure -/

section
variable {s : State} {q : Proc}

/-- The host's decision after an action that is accepted, whatever it is. -/
theorem runProc_of_next {u : State} (ha : s.act (q.task.action s.params) = .next u) :
    s.runProc q = .next (u.followed q.callers (q.task.resume u.params u.host.rdata)) := by
  rw [State.runProc, ha]
  rfl

theorem runProc_of_fault {f : Fault} (ha : s.act (q.task.action s.params) = .fault f) : s.runProc q = .fault f := by
  rw [State.runProc, ha]
  rfl

theorem runProc_of_refused {r : Refusal} (ha : s.act (q.task.action s.params) = .refused r) :
    s.runProc q = .refused r := by
  rw [State.runProc, ha]
  rfl

end

/-! ## The accesses of `configure` in the states it meets -/

/-- A write of PRER_LO that is accepted (40_register_access.md R100). -/
def Block.writeLow (v : Byte) (b : Block) : Block := { b with prerLo := v, loWritten := true }

/-- A write of PRER_HI that is accepted (40_register_access.md R101). -/
def Block.writeHigh (v : Byte) (b : Block) : Block := { b with prerHi := v, hiWritten := true }

section
variable {s : State}

theorem exec_wrCtrDisable_of_idle (hp : s.block.pending = none) (hi : s.block.phase = .idle) :
    exec .wrCtrDisable s = .next (s.withBlock s.block.disable) := by
  rw [exec_wrCtrDisable, Block.checkNotPending_of_none _ hp, if_neg (not_not_intro hi), State.onBlock_of_next]

theorem exec_wrCtrDisable_of_held (hp : s.block.pending = none) (hh : s.block.phase ≠ .idle) :
    exec .wrCtrDisable s = .fault .disableWhileActive := by
  rw [exec_wrCtrDisable, Block.checkNotPending_of_none _ hp, if_pos hh, State.onBlock_of_fault]

theorem exec_wrCtrDisable_of_pending (hp : s.block.pending ≠ none) :
    exec .wrCtrDisable s = .fault .accessDuringTransfer := by
  rw [exec_wrCtrDisable, Block.checkNotPending_of_pending _ hp, State.onBlock_of_fault]

theorem exec_wrCtrEnable_of_disabled (hp : s.block.pending = none) (he : s.block.en = false) :
    exec .wrCtrEnable s = .next (s.withBlock s.block.enable) := by
  rw [exec_wrCtrEnable, Block.checkNotPending_of_none _ hp, he]
  rfl

variable (he : s.block.en = false) (v : Byte)
include he

theorem exec_wrPrerlo_of_unconfigured (hc : s.block.configured = false) :
    exec (.wrPrerlo v) s = .next (s.withBlock (s.block.writeLow v)) := by
  rw [exec_wrPrerlo, Block.checkPrescale_of_unconfigured _ he hc]
  rfl

theorem exec_wrPrerhi_of_unconfigured (hc : s.block.configured = false) :
    exec (.wrPrerhi v) s = .next (s.withBlock (s.block.writeHigh v)) := by
  rw [exec_wrPrerhi, Block.checkPrescale_of_unconfigured _ he hc]
  rfl

theorem exec_wrPrerlo_of_configured (hc : s.block.configured = true) :
    exec (.wrPrerlo v) s = .refused .reconfigure := by
  rw [exec_wrPrerlo, Block.checkPrescale_of_configured _ he hc, State.onBlock_of_refused]

end

/-! ## `configure` -/

/-- With nothing scheduled, the first step of `configure` is its disable. -/
theorem step_begins_configure {s : State} {v : BitVec 16} {rest : List HostOp} (hf : s.block.fault = none)
    (ht : s.turns = []) (hq : s.host.proc = none) (hp : s.host.program = .call (.configure v) :: rest) :
    step s = (s.withProgram rest).runProc { task := .configure v .disable, callers := [] } :=
  (step_runs_program_of_empty_schedule hf hq hp ht).trans (runOp_call rfl)

/-- The host, which is else as in `host`, is before this part of `configure`, the block is `b`, and nothing is
scheduled. -/
structure State.Configures (v : BitVec 16) (host : HostState) (part : ConfigureAt) (b : Block) (s : State) : Prop where
  running : s.block.fault = none
  silent : s.turns = []
  block_eq : s.block = b
  host_eq : s.host = { host with proc := some { task := .configure v part, callers := [] } }

/-- The disable of a call made while the bus is free. -/
theorem configure_disable_step {s : State} {v : BitVec 16} {rest : List HostOp} (hf : s.block.fault = none)
    (ht : s.turns = []) (hq : s.host.proc = none) (hp : s.host.program = .call (.configure v) :: rest)
    (hn : s.block.pending = none) (hi : s.block.phase = .idle) :
    ∃ t, step s = .next t ∧ t.Configures v { s.host with program := rest } .low s.block.disable :=
  ⟨_, (step_begins_configure hf ht hq hp).trans (runProc_of_next (exec_wrCtrDisable_of_idle hn hi)), hf, ht, rfl, rfl⟩

section
variable {s : State} {v : BitVec 16} {host : HostState} {part : ConfigureAt} {b : Block}

/-- Inside `configure` the next step is the action of the part. -/
theorem State.Configures.step_eq (h : s.Configures v host part b) :
    step s = s.runProc { task := .configure v part, callers := [] } :=
  step_runs_procedure_of_empty_schedule h.running h.silent (by rw [h.host_eq])

/-- A part whose access is accepted and which is not the last. -/
theorem State.Configures.goto_step {next : ConfigureAt} {c : Block} (h : s.Configures v host part b)
    (ha : s.act ((Task.configure v part).action s.params) = .next (s.withBlock c)) (hc : c.fault = b.fault)
    (hr : ∀ p x, (Task.configure v part).resume p x = .goto (.configure v next)) :
    ∃ t, step s = .next t ∧ t.Configures v host next c := by
  obtain rfl := h.block_eq
  exact ⟨_, h.step_eq.trans (runProc_goto ha (hr ..)), hc.trans h.running, h.silent, rfl,
    by simp [State.within, h.host_eq]⟩

theorem State.Configures.low_step (h : s.Configures v host .low b) (he : b.en = false) (hc : b.configured = false) :
    ∃ t, step s = .next t ∧ t.Configures v host .high (b.writeLow (v.extractLsb' 0 8)) := by
  obtain rfl := h.block_eq
  exact h.goto_step (exec_wrPrerlo_of_unconfigured he _ hc) rfl fun _ _ => rfl

theorem State.Configures.high_step (h : s.Configures v host .high b) (he : b.en = false) (hc : b.configured = false) :
    ∃ t, step s = .next t ∧ t.Configures v host .enable (b.writeHigh (v.extractLsb' 8 8)) := by
  obtain rfl := h.block_eq
  exact h.goto_step (exec_wrPrerhi_of_unconfigured he _ hc) rfl fun _ _ => rfl

theorem State.Configures.enable_step (h : s.Configures v host .enable b) (hn : b.pending = none)
    (he : b.en = false) : ∃ t, step s = .next t ∧ t.Configures v host .settle b.enable := by
  obtain rfl := h.block_eq
  exact h.goto_step (exec_wrCtrEnable_of_disabled hn he) rfl fun _ _ => rfl

theorem State.Configures.settle_step (h : s.Configures v host .settle b) : ∃ t, step s = .next t ∧
    t.block = b.delay Config.tSettleUs ∧ t.host = { host with proc := none, results := host.results ++ [.unit] } := by
  obtain rfl := h.block_eq
  exact ⟨_, h.step_eq.trans (runProc_of_next rfl), rfl,
    by simp [State.followed, Task.resume, Control.follow, returnTo, HostState.follow, h.host_eq]⟩

end

/-- Settles O52: the disable leaves EN = 0, so the prescale writes pass, and the enable finds both written. -/
theorem configureLeavesTheBlockReady : Obligations.ConfigureLeavesTheBlockReady := by
  intro s v rest hf hn hi hc ht hq hp
  obtain ⟨s₁, disable, h⟩ := configure_disable_step hf ht hq hp hn hi
  obtain ⟨s₂, low, h⟩ := h.low_step rfl hc
  obtain ⟨s₃, high, h⟩ := h.high_step rfl hc
  obtain ⟨s₄, enable, h⟩ := h.enable_step hn rfl
  obtain ⟨t, settle, hb, hh⟩ := h.settle_step
  refine ⟨t, ?run, ?prescale, ?block, ?host⟩
  case run => rw [runFor_next disable, runFor_next low, runFor_next high, runFor_next enable, runFor_next settle,
    runFor_zero]
  case prescale =>
    have bytes : v.extractLsb' 8 8 ++ v.extractLsb' 0 8 = v := BitVec.extractLsb'_append_extractLsb'
    simpa [hb, Block.prescale, Block.writeHigh, Block.writeLow] using bytes
  case block => simp [hb, Block.delay, Block.enable, Block.writeHigh, Block.writeLow, Block.disable, Config.tSettleUs]
  case host => simp [hh, hq]

/-- Settles O53: the disable checks the pending command and then the phase, and when it passes, the prescale write finds
the block configured. -/
theorem secondConfigureStops : Obligations.SecondConfigureStops := by
  intro s v rest hf hc ht hq hp
  refine ⟨fun hn => ?_, fun hn hh => ?_, fun hn hi => ?_⟩
  · exact (step_begins_configure hf ht hq hp).trans (runProc_of_fault (exec_wrCtrDisable_of_pending hn))
  · exact (step_begins_configure hf ht hq hp).trans (runProc_of_fault (exec_wrCtrDisable_of_held hn hh))
  · obtain ⟨t, disable, h⟩ := configure_disable_step hf ht hq hp hn hi
    have refused : step t = .refused .reconfigure :=
      h.step_eq.trans <| runProc_of_refused <|
        exec_wrPrerlo_of_configured (by rw [h.block_eq]; rfl) _ (by rw [h.block_eq]; exact hc)
    rw [runFor_next disable, runFor_refused refused]

end Sys2Proof.Machine
end

section
/-! SUPPORT. The steps of a transaction under the eager schedule (44_transactions.md R203, R206): the byte put in TXR, and
a command with its completion and the poll that follows. -/

namespace Sys2Proof.Machine

/-! ## Runs -/

theorem runFor_add {k : Nat} {s t : State} (h : runFor k s = .next t) (n : Nat) :
    runFor (k + n) s = runFor n t := by
  induction k generalizing s with
  | zero =>
    obtain rfl : s = t := by simpa [runFor_zero] using h
    rw [Nat.zero_add]
  | succ k ih =>
    rw [Nat.add_right_comm]
    cases hs : step s with
    | next u =>
      rw [runFor_next hs] at h ⊢
      exact ih h
    | fault f => simp [runFor_fault hs] at h
    | refused r => simp [runFor_refused hs] at h

/-! ## The bus side of the block -/

/-- What the claims about a transaction read of the block: the bus, RXR and IF (10_state.md R27, R31, R33, R37). -/
structure BusRecord where
  phase : Phase
  trace : List Symbol
  rxr : Byte
  irqFlag : Bool

/-- The record of a block. -/
def Block.bus (b : Block) : BusRecord := ⟨b.phase, b.trace, b.rxr, b.irqFlag⟩

/-- The record after a completion that puts `syms` on the bus, leaves `phase` and stores no byte in RXR. -/
def BusRecord.after (v : BusRecord) (syms : List Symbol) (phase : Phase) : BusRecord :=
  { v with phase := phase, trace := v.trace ++ syms, irqFlag := true }

@[simp] theorem BusRecord.after_phase (v : BusRecord) (syms : List Symbol) (ph : Phase) :
    (v.after syms ph).phase = ph := rfl

@[simp] theorem BusRecord.after_trace (v : BusRecord) (syms : List Symbol) (ph : Phase) :
    (v.after syms ph).trace = v.trace ++ syms := rfl

theorem BusRecord.after_nothing {v : BusRecord} (hi : v.irqFlag = true) : v.after [] v.phase = v := by
  obtain ⟨phase, trace, rxr, irqFlag⟩ := v
  obtain rfl : irqFlag = true := hi
  simp [BusRecord.after]

theorem BusRecord.after_after (v : BusRecord) (l m : List Symbol) (p q : Phase) :
    (v.after l p).after m q = v.after (l ++ m) q := by
  simp [BusRecord.after]

theorem Block.Ready.delay {b : Block} (h : b.Ready) (n : Nat) : (b.delay n).Ready := by
  obtain ⟨hp, he, hc, hs⟩ := h
  refine ⟨hp, he, hc, ?_⟩
  rw [Block.delay_settleUs, if_pos he]
  exact Nat.le_add_right_of_le hs

/-- A completion leaves the block ready for the next command. -/
theorem Block.Ready.complete {b t : Block} {c : CommandBits} {a : Bool} {d : Byte} (h : b.Ready)
    (hc : (b.accept c false).complete a d = .next t) : t.Ready := by
  obtain ⟨-, he, hconf, hs⟩ := h
  obtain ⟨hsame, hus, -⟩ := Block.complete_frame hc
  exact ⟨Block.complete_pending_cleared rfl hc, hsame.en.trans he, hsame.configured.trans hconf, hus ▸ hs⟩

/-! ## Between the actions of a transaction -/

/-- The machine runs, and the schedule, the program and the results are these. -/
structure State.Scheduled (program : List HostOp) (results : List Result) (turns : List Turn) (s : State) : Prop where
  running : s.block.fault = none
  schedule : s.turns = turns
  program_eq : s.host.program = program
  results_eq : s.host.results = results

/-- Between two actions of a transaction: the block is ready for a command, with the bus as in `v`. -/
structure State.Between (program : List HostOp) (results : List Result) (v : BusRecord) (turns : List Turn)
    (s : State) : Prop extends s.Scheduled program results turns where
  ready : s.block.Ready
  bus : s.block.bus = v

/-- The task puts `byte` in TXR and goes on to `next`. -/
structure Task.Transmits (task : Task) (byte : Byte) (next : Task) : Prop where
  action : ∀ p, task.action p = .write Config.offData byte
  resume : ∀ p x, task.resume p x = .goto next

/-- The task writes the command `c` and polls, to go on with `k`. -/
structure Task.Commands (task : Task) (c : CommandBits) (k : AfterPoll) : Prop where
  action : ∀ p, ∃ byte, task.action p = .write Config.offCmd byte ∧ transferOf (decodeCommand byte) = some (c, false)
  resume : ∀ p x, task.resume p x = pollThen k

/-- The action of a task that puts `byte` in TXR, while nothing is pending. -/
theorem runProc_transmit {s : State} {byte : Byte} {next task : Task} (ht : task.Transmits byte next)
    (hn : s.block.pending = none) (callers : List Frame) : s.runProc { task := task, callers := callers } =
      .next ((s.withBlock { s.block with txr := byte }).within { task := next, callers := callers }) := by
  refine runProc_goto ?_ (ht.resume ..)
  rw [ht.action]
  exact (exec_wrTxr byte s).trans (congrArg s.onBlock (Block.checkNotPending_of_none _ hn))

/-- The action of a task that writes a command the block accepts. -/
theorem runProc_command {s : State} {c : CommandBits} {k : AfterPoll} {task : Task} (ht : task.Commands c k)
    (hr : s.block.Ready) (ha : s.block.phase.Allows c) (callers : List Frame) :
    s.runProc { task := task, callers := callers } =
      .next ((s.withBlock (s.block.accept c false)).within { task := .poll .wait 0 k, callers := callers }) := by
  refine runProc_goto ?_ (ht.resume ..)
  obtain ⟨byte, haction, hc⟩ := ht.action s.params
  rw [haction]
  exact transferCommandsAreAccepted _ c false s hc hr ha

section
variable {program : List HostOp} {results : List Result} {turns : List Turn} {s : State} {callers : List Frame}

/-! ### One step -/

/-- In its turn the host inside a procedure runs the task it has come to. -/
theorem State.Scheduled.step_eq (h : s.Scheduled program results (.host :: turns)) (task : Task)
    (callers : List Frame) : step (s.followed callers (.goto task)) =
      ((s.withTurns turns).followed callers (.goto task)).runProc { task := task, callers := callers } :=
  (step_of_host_turn (s := s.followed callers (.goto task)) h.running h.schedule).trans (hostStep_of_procedure rfl)

theorem State.Between.transmit_step {v : BusRecord} {byte : Byte} {task next : Task} (ht : task.Transmits byte next)
    (h : s.Between program results v (.host :: turns)) :
    ∃ t : State, step (s.followed callers (.goto task)) = .next (t.followed callers (.goto next)) ∧
      t.Between program results v turns ∧ t.block.txr = byte :=
  ⟨(s.withTurns turns).withBlock { s.block with txr := byte },
    (h.step_eq task callers).trans <| runProc_transmit
      (s := (s.withTurns turns).followed callers (.goto task)) ht h.ready.1 callers,
    ⟨⟨h.running, rfl, h.program_eq, h.results_eq⟩, h.ready, h.bus⟩, rfl⟩

theorem State.Between.command_step {v : BusRecord} {task : Task} {c : CommandBits} {k : AfterPoll}
    (ht : task.Commands c k) (h : s.Between program results v (.host :: turns)) (ha : v.phase.Allows c) :
    ∃ t : State, step (s.followed callers (.goto task)) = .next (t.followed callers (.goto (.poll .wait 0 k))) ∧
      t.Scheduled program results turns ∧ t.block = s.block.accept c false := by
  obtain rfl := h.bus
  exact ⟨(s.withTurns turns).withBlock (s.block.accept c false),
    (h.step_eq task callers).trans <| runProc_command
      (s := (s.withTurns turns).followed callers (.goto task)) ht h.ready ha callers,
    ⟨h.running, rfl, h.program_eq, h.results_eq⟩, rfl⟩

theorem State.Scheduled.complete_step {x : Inputs} {b : Block} (h : s.Scheduled program results (x.turn :: turns))
    (hb : s.block.complete x.1 x.2 = .next b) (callers : List Frame) (c : Control) :
    ∃ t : State, step (s.followed callers c) = .next (t.followed callers c) ∧
      t.Scheduled program results turns ∧ t.block = b := by
  obtain ⟨hf, ht, hp, hres⟩ := h
  obtain ⟨-, -, hbf⟩ := Block.complete_frame hb
  refine ⟨(s.withTurns turns).withBlock b, ?_, ⟨hbf.trans hf, rfl, hp, hres⟩, rfl⟩
  rw [step_of_complete_turn (s := s.followed callers c) hf ht]
  exact congrArg _ hb

theorem State.Scheduled.wait_step (h : s.Scheduled program results (.host :: turns)) (n : Nat) (k : AfterPoll) :
    ∃ t : State, step (s.followed callers (.goto (.poll .wait n k))) =
        .next (t.followed callers (.goto (.poll .read n k))) ∧
      t.Scheduled program results turns ∧ t.block = s.block.delay s.params.tPoll :=
  ⟨(s.withTurns turns).delay s.params.tPoll, (h.step_eq ..).trans (runProc_poll_wait ..),
    ⟨h.running, rfl, h.program_eq, h.results_eq⟩, rfl⟩

/-- With nothing pending the status read ends the poll, with the acknowledge where it is known. -/
theorem State.Scheduled.read_step (h : s.Scheduled program results (.host :: turns)) (hn : s.block.pending = none)
    (n : Nat) (k : AfterPoll) :
    ∃ (t : State) (ack : Bool), step (s.followed callers (.goto (.poll .read n k))) =
        .next (t.followed callers (k.resume ack)) ∧
      t.Scheduled program results turns ∧ t.block = s.block ∧ ∀ a, s.block.rxack = some a → ack = !a :=
  ⟨(s.withTurns turns).answerDrawn s.status, (TransactionStatus.ofByte s.status).ackReceived,
    (h.step_eq ..).trans <| runProc_poll_read_of_ended
      (s := (s.withTurns turns).followed callers (.goto (.poll .read n k))) n k callers (tipFlag_of_none hn),
    ⟨h.running, rfl, h.program_eq, h.results_eq⟩, rfl, fun _ ha => ofByte_statusByte_ackReceived hn ha ..⟩

/-! ### A command, its completion and its poll -/

/-- The block completes the command at once, and the poll after it finds TIP 0 at its first read. -/
theorem State.Between.command_steps {v : BusRecord} {task : Task} {c : CommandBits} {k : AfterPoll} {x : Inputs}
    {b : Block} (ht : task.Commands c k)
    (h : s.Between program results v (.host :: x.turn :: .host :: .host :: turns)) (ha : v.phase.Allows c)
    (hb : (s.block.accept c false).complete x.1 x.2 = .next b) :
    ∃ (t : State) (ack : Bool), runFor 4 (s.followed callers (.goto task)) = .next (t.followed callers (k.resume ack)) ∧
      t.Between program results b.bus turns ∧ (c.wr = true → ack = !x.1) := by
  obtain ⟨s₁, hcommand, h₁, hb₁⟩ := h.command_step ht ha
  obtain ⟨s₂, hcomplete, h₂, hb₂⟩ := h₁.complete_step (by rw [hb₁]; exact hb) callers _
  obtain ⟨s₃, hwait, h₃, hb₃⟩ := h₂.wait_step 0 k
  have ready : s₃.block.Ready := by rw [hb₃, hb₂]; exact (h.ready.complete hb).delay _
  obtain ⟨t, ack, hread, h₄, hb₄, hack⟩ := h₃.read_step ready.1 0 k
  refine ⟨t, ack, ?_, ⟨h₄, ?_, ?_⟩, fun hw => hack x.1 ?_⟩
  · rw [runFor_next hcommand, runFor_next hcomplete, runFor_next hwait, runFor_next hread, runFor_zero]
  · rwa [hb₄]
  · rw [hb₄, hb₃, hb₂]
    rfl
  · rw [hb₃, hb₂, Block.delay_rxack, Block.complete_rxack rfl hb]
    simp [hw]

end

end Sys2Proof.Machine
end

section
/-! SUPPORT. The procedures of a transaction under the eager schedule: what each part of a procedure does to the bus and
where it leads the host (44_transactions.md R203, R206), and the call that begins one. -/

namespace Sys2Proof.Machine

/-! ## The tasks of `write` and `read` -/

theorem writeSend_transmits (a : Byte) (data : List Byte) (sendStop : Bool) :
    (Task.writeSend a data sendStop).Transmits (busByte a false) (.writeStart data sendStop) :=
  ⟨fun _ => rfl, fun _ _ => rfl⟩

theorem writeData_transmits (k : Nat) (byte : Byte) (rest : List Byte) (sendStop : Bool) :
    (Task.writeData k byte rest sendStop).Transmits byte (.writeCommand k rest sendStop) :=
  ⟨fun _ => rfl, fun _ _ => rfl⟩

theorem readSend_transmits (a count : Byte) :
    (Task.readSend a count).Transmits (busByte a true) (.readStart count) :=
  ⟨fun _ => rfl, fun _ _ => rfl⟩

theorem writeStart_commands (data : List Byte) (sendStop : Bool) :
    (Task.writeStart data sendStop).Commands .startWrite (.writeAddress data sendStop) :=
  ⟨fun _ => ⟨_, rfl, rfl⟩, fun _ _ => rfl⟩

theorem writeCommand_commands (k : Nat) (rest : List Byte) (sendStop : Bool) :
    (Task.writeCommand k rest sendStop).Commands .write (.writeByte k rest sendStop) :=
  ⟨fun _ => ⟨_, rfl, rfl⟩, fun _ _ => rfl⟩

theorem readStart_commands (count : Byte) : (Task.readStart count).Commands .startWrite (.readAddress count) :=
  ⟨fun _ => ⟨_, rfl, rfl⟩, fun _ _ => rfl⟩

theorem readCommand_commands_read (n : Nat) (got : List Byte) :
    (Task.readCommand (n + 1) got).Commands .read (.readByte (n + 1) got) :=
  ⟨fun _ => ⟨cmdReadByte, rfl, rfl⟩, fun _ _ => rfl⟩

theorem readCommand_commands_final (got : List Byte) :
    (Task.readCommand 0 got).Commands .readNackStop (.readByte 0 got) :=
  ⟨fun _ => ⟨_, rfl, rfl⟩, fun _ _ => rfl⟩

theorem stopCommand_commands (r : Result) : (Task.stopCommand r).Commands .stop (.afterStop r) :=
  ⟨fun _ => ⟨_, rfl, rfl⟩, fun _ _ => rfl⟩

/-! ## The parts of a transaction -/

/-- In the turns `part`, whatever comes after them and whoever called the procedure, the host comes from the decision
`c` to the decision `e`, and the bus from `v` to `w`. -/
def Control.Reaches (part : List Turn) (c e : Control) (v w : BusRecord) : Prop :=
  ∀ (program : List HostOp) (results : List Result) (callers : List Frame) (turns : List Turn) (s : State),
    s.Between program results v (part ++ turns) →
    ∃ t : State, runFor part.length (s.followed callers c) = .next (t.followed callers e) ∧
      t.Between program results w turns

theorem Control.Reaches.refl (c : Control) (v : BusRecord) : Control.Reaches [] c c v v :=
  fun _ _ _ _ s h => ⟨s, rfl, h⟩

theorem Control.Reaches.trans {part part' : List Turn} {c e f : Control} {u v w : BusRecord}
    (h : Control.Reaches part c e u v) (h' : Control.Reaches part' e f v w) :
    Control.Reaches (part ++ part') c f u w := by
  intro program results callers turns s hs
  rw [List.append_assoc] at hs
  obtain ⟨t, hrun, ht⟩ := h _ _ callers _ _ hs
  obtain ⟨r, hrun', hr⟩ := h' _ _ callers _ _ ht
  refine ⟨r, ?_, hr⟩
  rw [List.length_append, runFor_add hrun, hrun']

/-- Two parts, the first of which ends with the acknowledge `y` of a byte. -/
theorem Control.Reaches.trans_after {part part' : List Turn} {c e f : Control} {u v : BusRecord} {l m : List Symbol}
    {y : Symbol} {p q : Phase} (h : Control.Reaches part c e u (v.after (l ++ [y]) p))
    (h' : Control.Reaches part' e f (v.after (l ++ [y]) p) ((v.after (l ++ [y]) p).after m q)) :
    Control.Reaches (part ++ part') c f u (v.after (l ++ y :: m) q) := by
  have both := h.trans h'
  rwa [BusRecord.after_after, List.append_assoc] at both

section
variable {v w : BusRecord} {x : Inputs} {task next : Task} {k : AfterPoll} {byte : Byte}

/-- The command `c`, written with `byte` in TXR and completed with the inputs `x`, takes the bus from `v` to `w`. -/
def CommandBits.Moves (c : CommandBits) (byte : Byte) (x : Inputs) (v w : BusRecord) : Prop :=
  ∀ b : Block, b.bus = v → b.txr = byte → ∃ t, (b.accept c false).complete x.1 x.2 = .next t ∧ t.bus = w

/-- A byte put in TXR and sent: the poll answers the slave's acknowledge. -/
theorem Task.Transmits.reaches {c : CommandBits} (ht : task.Transmits byte next) (hc : next.Commands c k)
    (hwr : c.wr = true) (ha : v.phase.Allows c) (hm : c.Moves byte x v w) :
    Control.Reaches (sendTurns x) (.goto task) (k.resume (!x.1)) v w := by
  intro program results callers turns s h
  obtain ⟨u, htransmit, hu, htxr⟩ := State.Between.transmit_step (callers := callers) ht h
  obtain ⟨b, hb, rfl⟩ := hm u.block hu.bus htxr
  obtain ⟨t, ack, hrun, hbetween, hack⟩ := hu.command_steps (callers := callers) hc ha hb
  obtain rfl := hack hwr
  exact ⟨t, (runFor_next htransmit 4).trans hrun, hbetween⟩

/-- A command after which the host does not ask for the acknowledge. -/
theorem Task.Commands.reaches {c : CommandBits} {e : Control} (hc : task.Commands c k) (he : ∀ ack, k.resume ack = e)
    (ha : v.phase.Allows c) (hm : ∀ byte, c.Moves byte x v w) :
    Control.Reaches [.host, x.turn, .host, .host] (.goto task) e v w := by
  intro program results callers turns s h
  obtain ⟨b, hb, rfl⟩ := hm s.block.txr s.block h.bus rfl
  obtain ⟨t, ack, hrun, hbetween, -⟩ := h.command_steps (callers := callers) hc ha hb
  exact ⟨t, he ack ▸ hrun, hbetween⟩

/-- The step that reads RXR after a READ. -/
theorem receive_reaches {left : Nat} {got : List Byte} {e : Control}
    (he : ∀ p, (Task.readReceive left got).resume p v.rxr = e) :
    Control.Reaches [.host] (.goto (.readReceive left got)) e v v := by
  intro program results callers turns s h
  obtain rfl := h.bus
  have accepted := runProc_of_next (q := { task := .readReceive left got, callers := callers })
    (exec_rdRxr_of_none (s := (s.withTurns turns).followed callers (.goto (.readReceive left got))) h.ready.1)
  obtain rfl := he s.params
  exact ⟨_, runFor_next ((h.step_eq ..).trans accepted) 0,
    ⟨h.running, rfl, h.program_eq, h.results_eq⟩, h.ready, rfl⟩

/-! ### What each command does to the bus (42_byte_engine.md R164) -/

/-- The direction bit of an acknowledged address byte decides who drives next. -/
theorem startWrite_moves (byte : Byte) (x : Inputs) (v : BusRecord) : CommandBits.startWrite.Moves byte x v
    (v.after (.start :: sentBits byte ++ [.sack x.1])
      (if x.1 = false ∧ byte.getLsbD 0 = true then .heldS else .heldM)) := by
  rintro b rfl rfl
  refine ⟨_, addressPhaseCompletes _ _ x.1 x.2 rfl, ?_⟩
  simp [Block.bus, BusRecord.after]

theorem write_moves (byte : Byte) (x : Inputs) (v : BusRecord) :
    CommandBits.write.Moves byte x v (v.after (sentBits byte ++ [.sack x.1]) .heldM) := by
  rintro b rfl rfl
  obtain ⟨completes, -⟩ := payloadWriteCompletes (b.accept .write false) b.txr x.1 x.2
  refine ⟨_, completes rfl, ?_⟩
  simp [Block.bus, BusRecord.after]

theorem read_moves (byte : Byte) (x : Inputs) (v : BusRecord) : CommandBits.read.Moves byte x v
    (BusRecord.after { v with rxr := x.2 } (receivedBits x.2 ++ [.mack false]) .heldS) := by
  rintro b rfl -
  obtain ⟨completes, -⟩ := readCompletes (b.accept .read false) x.1 x.2
  refine ⟨_, completes rfl, ?_⟩
  simp [Block.bus, BusRecord.after]

theorem readNackStop_moves (byte : Byte) (x : Inputs) (v : BusRecord) : CommandBits.readNackStop.Moves byte x v
    (BusRecord.after { v with rxr := x.2 } (receivedBits x.2 ++ [.mack true, .stop]) .idle) := by
  rintro b rfl -
  obtain ⟨-, completes⟩ := readCompletes (b.accept .readNackStop false) x.1 x.2
  refine ⟨_, completes rfl, ?_⟩
  simp [Block.bus, BusRecord.after]

theorem stop_moves (byte : Byte) (x : Inputs) {v : BusRecord} (hv : v.phase = .heldM) :
    CommandBits.stop.Moves byte x v (v.after [.stop] .idle) := by
  rintro b rfl -
  exact ⟨_, stopCompletes (b.accept .stop false) x.1 x.2 hv rfl, rfl⟩

theorem Phase.allows_startWrite {ph : Phase} (h : ph ≠ .heldS) : ph.Allows .startWrite := by
  cases ph with
  | idle => rfl
  | heldM => rfl
  | heldS => exact absurd rfl h

/-! ### The commands of `write` and `read` -/

/-- A STOP on a bus the block holds, after which the procedure returns. -/
theorem stop_reaches (hv : v.phase = .heldM) (r : Result) :
    Control.Reaches (stopTurns x) (.goto (.stopCommand r)) (.ret r) v (v.after [.stop] .idle) :=
  (stopCommand_commands r).reaches (fun _ => rfl) (by rw [hv]; rfl) fun byte => stop_moves byte x hv

/-- A READ that is not the last. -/
theorem read_reaches (hv : v.phase = .heldS) (n : Nat) (got : List Byte) :
    Control.Reaches (receiveTurns x) (.goto (.readCommand (n + 1) got)) (.goto (.readCommand n (got ++ [x.2]))) v
      (BusRecord.after { v with rxr := x.2 } (receivedBits x.2 ++ [.mack false]) .heldS) :=
  ((readCommand_commands_read n got).reaches (fun _ => rfl) (by rw [hv]; rfl) fun byte => read_moves byte x v).trans
    (receive_reaches fun _ => rfl)

/-- The last READ, with the STOP folded, after which `read` returns. -/
theorem final_read_reaches (hv : v.phase = .heldS) (got : List Byte) :
    Control.Reaches (receiveTurns x) (.goto (.readCommand 0 got)) (.ret (.bytes (got ++ [x.2]))) v
      (BusRecord.after { v with rxr := x.2 } (receivedBits x.2 ++ [.mack true, .stop]) .idle) :=
  ((readCommand_commands_final got).reaches (fun _ => rfl) (by rw [hv]; rfl)
    fun byte => readNackStop_moves byte x v).trans (receive_reaches fun _ => rfl)

end

/-! ## A call that begins with a byte in TXR -/

theorem runFor_succ_congr {s t : State} (h : step s = step t) (k : Nat) : runFor (k + 1) s = runFor (k + 1) t := by
  simp only [runFor, h]

/-- Beginning the call is being inside its procedure. -/
theorem step_begins_call {s : State} {c : Call} {q : Proc} {byte : Byte} {next : Task} {rest : List HostOp}
    {turns : List Turn} (hf : s.block.fault = none) (hn : s.block.pending = none) (ht : s.turns = .host :: turns)
    (hq : s.host.proc = none) (hp : s.host.program = .call c :: rest) (hc : c.begin s.params = .ok q)
    (htask : q.task.Transmits byte next) :
    step s = step ((s.withProgram rest).followed q.callers (.goto q.task)) := by
  have begins : step s = ((s.withTurns turns).withProgram rest).runProc q :=
    (step_runs_program_of_host_turn hf hq hp ht).trans (runOp_call hc)
  have inside : step ((s.withProgram rest).followed q.callers (.goto q.task)) =
      (((s.withProgram rest).withTurns turns).followed q.callers (.goto q.task)).runProc q :=
    (step_of_host_turn (s := (s.withProgram rest).followed q.callers (.goto q.task)) hf ht).trans
      (hostStep_of_procedure rfl)
  rw [begins, inside]
  exact (runProc_transmit (s := (s.withTurns turns).withProgram rest) htask hn q.callers).trans
    (runProc_transmit (s := ((s.withProgram rest).withTurns turns).followed q.callers (.goto q.task))
      htask hn q.callers).symm

/-- The run of a call of the host whose procedure reaches its end under the whole schedule. -/
theorem Control.Reaches.run_call {s : State} {c : Call} {task next : Task} {byte : Byte} {rest : List HostOp}
    {part turns : List Turn} {r : Result} {w : BusRecord}
    (h : Control.Reaches part (.goto task) (.ret r) s.block.bus w) (hpart : part = .host :: turns)
    (hc : c.begin s.params = .ok { task := task, callers := [] }) (htask : task.Transmits byte next)
    (hf : s.block.fault = none) (hr : s.block.Ready) (hq : s.host.proc = none) (hp : s.host.program = .call c :: rest)
    (ht : s.turns = part) :
    ∃ t, runFor part.length s = .next t ∧ t.host.program = rest ∧ t.host.proc = none ∧
      t.host.results = s.host.results ++ [r] ∧ t.block.pending = none ∧ t.block.bus = w := by
  have start : (s.withProgram rest).Between rest s.host.results s.block.bus (part ++ []) :=
    ⟨⟨hf, by rw [List.append_nil]; exact ht, rfl, rfl⟩, hr, rfl⟩
  obtain ⟨t, hrun, ht'⟩ := h _ _ [] _ _ start
  refine ⟨t.returned r, ?_, ht'.program_eq, rfl, congrArg (· ++ [r]) ht'.results_eq, ht'.ready.1, ht'.bus⟩
  subst hpart
  exact (runFor_succ_congr (step_begins_call hf hr.1 ht hq hp hc htask) turns.length).trans hrun

end Sys2Proof.Machine
end

section
/-! SUPPORT. The `write` of the host under the eager schedule, by induction on the bytes it sends (44_transactions.md
R206, R208). -/

namespace Sys2Proof.Machine

/-- The phase a `write` leaves (44_transactions.md R208). -/
def writePhase (sendStop : Bool) (ins : List Inputs) : Phase :=
  if writeStops sendStop ins then .idle else .heldM

theorem writePhase_of_nack (sendStop : Bool) {x : Inputs} (ins : List Inputs) (hx : x.1 = true) :
    writePhase sendStop (x :: ins) = .idle := by
  simp [writePhase, writeStops, hx]

section
variable {sendStop : Bool} {last : Inputs}

/-- The payload loop of `write` after `k + 1` acknowledged bytes, by induction on the bytes still to be sent. -/
theorem writeLoop_reaches (ins : List Inputs) : ∀ (data : List Byte) (k : Nat) (v : BusRecord),
    ins.length = data.length → v.phase = .heldM → v.irqFlag = true →
    Control.Reaches (writeTurns sendStop last ins) (writeLoop (k + 1) data sendStop)
      (.ret (writeResult (k + 1) ins)) v (v.after (writeTrace sendStop data ins) (writePhase sendStop ins)) := by
  induction ins with
  | nil =>
    intro data k v hlen hv hi
    obtain rfl := List.length_eq_zero_iff.mp hlen.symm
    cases sendStop with
    | true => exact stop_reaches hv _
    | false =>
      have unchanged : v.after [] .heldM = v := hv ▸ BusRecord.after_nothing hi
      exact unchanged.symm ▸ Control.Reaches.refl _ v
  | cons x ins ih =>
    intro data k v hlen hv hi
    obtain _ | ⟨byte, data⟩ := data
    · simp at hlen
    have sent := (writeData_transmits (k + 1) byte data sendStop).reaches (x := x)
      (writeCommand_commands (k + 1) data sendStop) rfl (by rw [hv]; rfl) (write_moves byte x v)
    obtain ⟨a, d⟩ := x
    cases a with
    | true =>
      rw [writePhase_of_nack sendStop ins rfl]
      exact sent.trans_after (stop_reaches rfl _)
    | false => exact sent.trans_after (ih data (k + 1) _ (Nat.succ.inj hlen) rfl rfl)

/-- A whole `write`: a NACK of the address ends it with no byte written, and an acknowledge leads to the payload. -/
theorem write_reaches (addr : Byte) (data : List Byte) (ins : List Inputs) {v : BusRecord}
    (hlen : ins.length = data.length + 1) (hv : v.phase ≠ .heldS) :
    Control.Reaches (writeTurns sendStop last ins) (.goto (.writeSend addr data sendStop)) (.ret (writeResult 0 ins)) v
      (v.after (.start :: writeTrace sendStop (busByte addr false :: data) ins) (writePhase sendStop ins)) := by
  obtain _ | ⟨⟨a, d⟩, ins⟩ := ins
  · simp at hlen
  have sent := (writeSend_transmits addr data sendStop).reaches (x := (a, d)) (writeStart_commands data sendStop) rfl
    (Phase.allows_startWrite hv) (startWrite_moves (busByte addr false) (a, d) v)
  obtain ⟨direction, -⟩ := busAddressByteIsMaskedAddressAndDirection addr false
  rw [direction, if_neg (by simp)] at sent
  cases a with
  | true =>
    rw [writePhase_of_nack sendStop ins rfl]
    exact sent.trans_after (stop_reaches rfl .noAck)
  | false => exact sent.trans_after (writeLoop_reaches ins data 0 _ (Nat.succ.inj hlen) rfl rfl)

end

/-- Settles O54: the turns of the schedule are those of the procedure, byte by byte. -/
theorem writeTransactionFollowsItsTable : Obligations.WriteTransactionFollowsItsTable := by
  intro s addr data sendStop ins last rest hf hr hv hq hwidth hcap hlen hp ht
  have reaches := write_reaches (sendStop := sendStop) (last := last) addr data ins (v := s.block.bus) hlen hv
  obtain ⟨x, ins, rfl⟩ := List.exists_cons_of_length_eq_add_one hlen
  obtain ⟨t, hrun, hprogram, hproc, hresults, hpending, hbus⟩ := reaches.run_call rfl
    (c := .write addr data sendStop) (beginWrite_of_fits hwidth hcap addr sendStop [])
    (writeSend_transmits addr data sendStop) hf hr hq hp ht
  exact ⟨t, hrun, hprogram, hproc, hresults, hpending, congrArg BusRecord.irqFlag hbus,
    congrArg BusRecord.phase hbus, congrArg BusRecord.trace hbus⟩

end Sys2Proof.Machine
end

section
/-! SUPPORT. The `read` of the host under the eager schedule, by induction on the bytes it receives (44_transactions.md
R203 to R205). -/

namespace Sys2Proof.Machine

/-- The READs of `read` with `left` more bytes after the next, by induction on the bytes the slave sends. -/
theorem readCommand_reaches (ins : List Inputs) : ∀ (left : Nat) (got : List Byte) (v : BusRecord),
    ins.length = left + 1 → v.phase = .heldS →
    ∃ w, Control.Reaches (readTurns ins) (.goto (.readCommand left got)) (.ret (.bytes (got ++ ins.map (·.2)))) v w ∧
      w.phase = .idle ∧ w.trace = v.trace ++ readTrace ins := by
  induction ins with
  | nil =>
    intro left got v hlen hv
    simp at hlen
  | cons x ins ih =>
    intro left got v hlen hv
    cases left with
    | zero =>
      obtain rfl := List.length_eq_zero_iff.mp (Nat.succ.inj hlen)
      exact ⟨_, final_read_reaches hv got, rfl, rfl⟩
    | succ left =>
      have first := read_reaches (x := x) hv left got
      obtain ⟨w, hrest, hw, htrace⟩ := ih left (got ++ [x.2]) _ (Nat.succ.inj hlen) (BusRecord.after_phase ..)
      rw [List.append_assoc] at hrest
      refine ⟨w, first.trans hrest, hw, ?_⟩
      obtain ⟨y, ins, rfl⟩ := List.exists_cons_of_length_eq_add_one (Nat.succ.inj hlen)
      rw [htrace]
      simp [readTrace]

theorem readAddress_resume_of_ack {count : Byte} {left : Nat} (h : count.toNat = left + 1) :
    (AfterPoll.readAddress count).resume true = .goto (.readCommand left []) := by
  simp [AfterPoll.resume, h]

theorem readTurns_length (ins : List Inputs) : (readTurns ins).length = 5 * ins.length := by
  simp [readTurns, receiveTurns, List.length_flatMap, Nat.mul_comm]

section
variable {addr count : Byte} {x : Inputs} {v : BusRecord}

/-- The address phase of `read`: on an acknowledge the slave drives next. -/
theorem readSend_reaches_of_ack (hx : x.1 = false) (hv : v.phase ≠ .heldS) :
    Control.Reaches (sendTurns x) (.goto (.readSend addr count)) ((AfterPoll.readAddress count).resume true) v
      (v.after (.start :: sentBits (busByte addr true) ++ [.sack false]) .heldS) := by
  have sent := (readSend_transmits addr count).reaches (x := x) (readStart_commands count) rfl
    (Phase.allows_startWrite hv) (startWrite_moves (busByte addr true) x v)
  obtain ⟨direction, -⟩ := busAddressByteIsMaskedAddressAndDirection addr true
  rwa [hx, direction, if_pos ⟨rfl, rfl⟩] at sent

/-- A NACK of the address ends `read` with a STOP. -/
theorem read_reaches_of_nack {last : Inputs} (hx : x.1 = true) (hv : v.phase ≠ .heldS) :
    Control.Reaches (sendTurns x ++ stopTurns last) (.goto (.readSend addr count)) (.ret .noAck) v
      (v.after (.start :: sentBits (busByte addr true) ++ [.sack true, .stop]) .idle) := by
  have sent := (readSend_transmits addr count).reaches (x := x) (readStart_commands count) rfl
    (Phase.allows_startWrite hv) (startWrite_moves (busByte addr true) x v)
  rw [hx, if_neg (by simp)] at sent
  exact sent.trans_after (stop_reaches rfl .noAck)

end

/-- Settles O56: no READ follows the address, so the bus stays with the slave. -/
theorem readOfNoBytesLeavesTheSlaveDriving : Obligations.ReadOfNoBytesLeavesTheSlaveDriving := by
  intro s addr x rest hf hr hv hq hp hx ht
  have reaches := readSend_reaches_of_ack (addr := addr) (count := 0) (v := s.block.bus) hx hv
  obtain ⟨t, hrun, -, hproc, hresults, hpending, hbus⟩ := reaches.run_call rfl rfl (readSend_transmits addr 0)
    hf hr hq hp ht
  exact ⟨t, hrun, hproc, hresults, congrArg BusRecord.phase hbus, hpending⟩

/-- Settles O55: after an acknowledged address the READs leave the bus free with their last STOP, and after a NACK the
STOP command does. -/
theorem readTransactionReturnsTheBytesOrNoAck : Obligations.ReadTransactionReturnsTheBytesOrNoAck := by
  intro s addr count x ins last rest hf hr hv hq hlen hne hp
  constructor
  · intro hx ht
    obtain ⟨left, hleft⟩ := Nat.exists_eq_add_one_of_ne_zero fun h => hne (BitVec.eq_of_toNat_eq h)
    have address := readSend_reaches_of_ack (addr := addr) (count := count) (v := s.block.bus) hx hv
    rw [readAddress_resume_of_ack hleft] at address
    obtain ⟨w, payload, hphase, htrace⟩ :=
      readCommand_reaches ins left [] _ (hlen.trans hleft) (BusRecord.after_phase ..)
    obtain ⟨t, hrun, hprogram, hproc, hresults, hpending, rfl⟩ := (address.trans payload).run_call rfl rfl
      (readSend_transmits addr count) hf hr hq hp ht
    rw [List.length_append, readTurns_length] at hrun
    refine ⟨t, hrun, hprogram, hproc, hresults, hpending, hphase, htrace.trans ?_⟩
    simp [Block.bus]
  · intro hx ht
    obtain ⟨t, hrun, hprogram, hproc, hresults, hpending, hbus⟩ :=
      (read_reaches_of_nack (addr := addr) (count := count) (last := last) hx hv).run_call rfl rfl
        (readSend_transmits addr count) hf hr hq hp ht
    exact ⟨t, hrun, hprogram, hproc, hresults, hpending, congrArg BusRecord.phase hbus, congrArg BusRecord.rxr hbus,
      (congrArg BusRecord.trace hbus).trans (List.append_assoc ..).symm⟩

end Sys2Proof.Machine
end

section
/-! SUPPORT. The compositions of `write` and `read` of the EEPROM client, and the values it assembles from bytes
(45_eeprom_client.md R220, R222 to R224). -/

namespace Sys2Proof.Machine

/-! ## Region accesses -/

/-- What a `write` that is not refused begins with: its address byte, for the callers it was given. -/
theorem beginWrite_eq_ok_iff {p : Config.Params} {a : Byte} {data : List Byte} {sendStop : Bool}
    {callers : List Frame} {q : Proc} : beginWrite p a data sendStop callers = .ok q ↔
      (data.length ≤ 254 ∧ data.length ≤ p.bufCap.toNat) ∧
        q = { task := .writeSend a data sendStop, callers := callers } := by
  by_cases hfits : data.length ≤ 254 ∧ data.length ≤ p.bufCap.toNat
  · rw [beginWrite_of_fits hfits.1 hfits.2]
    simp [hfits, eq_comm]
  · rw [beginWrite_of_too_long (by omega)]
    simp [hfits]

section
variable (slave count : Byte) (callers : List Frame)

/-- The address and the offset byte are written: the `read` begins. -/
theorem returnTo_regionRead_of_written_two : returnTo (.written 2) (.regionRead slave count :: callers) =
    .running { task := .readSend slave count, callers := callers } := rfl

/-- Every other answer of the write phase, a shorter `Written` as well as `NoAck`, fails it; only a `Timeout` is
told apart. -/
theorem returnTo_regionRead_of_failed {r : Result} (hwritten : r ≠ .written 2) (htimeout : r ≠ .timeout) :
    returnTo r (.regionRead slave count :: callers) = returnTo .noAck callers := by
  cases r with
  | written k => exact if_neg fun hk => hwritten (congrArg Result.written hk)
  | timeout => exact absurd rfl htimeout
  | unit | ack | bytes | noAck | uniqueId | promValue => rfl

end

/-- Settles O58: `read_region` is the `write` of its offset with a caller that reads, and the caller acts on the answer
of the write phase. -/
theorem regionAccessesComposeWriteAndRead : Obligations.RegionAccessesComposeWriteAndRead := by
  intro p slave off count payload callers
  refine ⟨rfl, fun q hq => ?_, returnTo_regionRead_of_written_two slave count callers,
    fun r => returnTo_regionRead_of_failed slave count callers,
    (returnTo_timeout _).trans (returnTo_timeout callers).symm⟩
  obtain ⟨⟨hwidth, hcap⟩, rfl⟩ := beginWrite_eq_ok_iff.mp hq
  exact ⟨beginWrite_of_fits hwidth hcap slave false [], rfl⟩

/-! ## Values assembled from bytes -/

theorem getLsbD_extracted_byte (v : BitVec 32) (start : Nat) {k : Nat} (hk : k < 8) :
    (v.extractLsb' start 8).getLsbD k = v.getLsbD (start + k) := by
  rw [BitVec.getLsbD_extractLsb', decide_eq_true hk, Bool.true_and]

/-- The bytes of a word are joined again from the most significant one down. -/
theorem promOfBytes_bigEndianBytes (v : BitVec 32) : promOfBytes (bigEndianBytes v) = .promValue v := by
  have upper_two : v.extractLsb' 24 8 ++ v.extractLsb' 16 8 = v.extractLsb' 16 16 :=
    BitVec.extractLsb'_append_extractLsb'_eq_extractLsb' rfl
  have upper_three : v.extractLsb' 16 16 ++ v.extractLsb' 8 8 = v.extractLsb' 8 24 :=
    BitVec.extractLsb'_append_extractLsb'_eq_extractLsb' rfl
  have all_four : v.extractLsb' 8 24 ++ v.extractLsb' 0 8 = v := BitVec.extractLsb'_append_extractLsb'
  simp only [bigEndianBytes, promOfBytes, upper_two, upper_three, all_four]

/-- Two joined bytes, as R223 writes them. -/
theorem append_eq_shiftLeft_or (hi lo : Byte) : hi ++ lo = (hi.setWidth 16 <<< 8) ||| lo.setWidth 16 := by
  rw [BitVec.append_def, BitVec.shiftLeftZeroExtend_eq, BitVec.setWidth'_eq]

/-- Settles O59: the bits of each byte, and the words the bytes are joined to. -/
theorem clientValuesAreAssembledFromTheirBytes : Obligations.ClientValuesAreAssembledFromTheirBytes := by
  refine ⟨fun v => ⟨rfl, fun k => getLsbD_extracted_byte v 24, fun k => getLsbD_extracted_byte v 16,
    fun k => getLsbD_extracted_byte v 8, fun k hk => ?_, promOfBytes_bigEndianBytes v⟩,
    fun b0 b1 b2 b3 b4 b5 => congrArg Result.uniqueId (append_eq_shiftLeft_or b4 b5)⟩
  exact (getLsbD_extracted_byte v 0 hk).trans (by rw [Nat.zero_add])

end Sys2Proof.Machine
end

section
/-! SUPPORT. What a stop keeps (60_exceptions.md R241, R244): a stopped machine stays as it is, and a stop of the host
carries no symbols, since every check and every access stops before anything reaches the bus. -/

namespace Sys2Proof.Machine

/-! ## The stopped machine (60_exceptions.md R241) -/

theorem step_of_stopped {s : State} {c : Code} (h : s.block.fault = some c) : step s = .fault (.halted c) := by
  simp only [step, h]

theorem Block.stopWith_halted {b : Block} {c : Code} (h : b.fault = some c) : b.stopWith (.halted c) = b := by
  simp only [Block.stopWith, Fault.code, Fault.emitted, List.append_nil, ← h]

/-- Settles O8: recording the code a stopped machine has changes nothing. -/
theorem stoppedMachineTakesNoStep : Obligations.StoppedMachineTakesNoStep := by
  intro s c hc
  have halted : step s = .fault (.halted c) := step_of_stopped hc
  exact ⟨halted, by rw [stepKept_of_fault halted, Block.stopWith_halted hc, State.withBlock_self]⟩

/-! ## Outcomes whose fault carries no symbols -/

/-- The outcome is no fault, or one before which no symbol was emitted. -/
inductive Silent {σ : Type} : Host.Outcome σ Fault Refusal → Prop where
  | next (t : σ) : Silent (.next t)
  | refused (r : Refusal) : Silent (.refused r)
  | fault (f : Fault) (he : f.emitted = []) : Silent (.fault f)

namespace Silent

theorem emitted_eq_nil {σ : Type} {f : Fault} (h : Silent (σ := σ) (.fault f)) : f.emitted = [] := by
  cases h with
  | fault _ he => exact he

theorem ite {σ : Type} {q : Prop} [Decidable q] {o o' : Host.Outcome σ Fault Refusal} (h : Silent o)
    (h' : Silent o') : Silent (if q then o else o') := by
  split
  · exact h
  · exact h'

theorem onBlock {o : BlockOut} (h : Silent o) (s : State) : Silent (s.onBlock o) := by
  cases h with
  | next b => exact .next _
  | refused r => exact .refused r
  | fault f he => exact .fault f he

theorem mapNext {o : Out} (h : Silent o) (g : State → State) : Silent (mapNext g o) := by
  cases h with
  | next t => exact .next _
  | refused r => exact .refused r
  | fault f he => exact .fault f he

/-! ### The checks and the writes of the block -/

section
variable {k : BlockOut} (hk : Silent k) (b : Block) (c : CommandBits)
include hk

theorem checkPrescale : Silent (b.checkPrescale k) := ite (.fault _ rfl) (ite (.refused _) hk)

theorem checkNotPending : Silent (b.checkNotPending k) := ite (.fault _ rfl) hk

theorem checkStatic : Silent (c.checkStatic k) := ite (.refused _) (ite (.fault _ rfl) (ite (.fault _ rfl) hk))

theorem checkReady : Silent (b.checkReady k) :=
  checkNotPending (ite (.fault _ rfl) (ite (.fault _ rfl) (ite (.fault _ rfl) hk))) b

theorem checkPhase : Silent (b.checkPhase c k) := by
  unfold Block.checkPhase
  cases b.phase with
  | idle => exact ite hk (.fault _ rfl)
  | heldM => exact ite (.fault _ rfl) hk
  | heldS => exact ite hk (.fault _ rfl)

end

theorem writeControl (v : Byte) (b : Block) : Silent (b.writeControl v) :=
  ite (.refused _) (checkNotPending (ite (.fault _ rfl) (ite (.next _) (.next _))) b)

theorem transfer (c : CommandBits) (i : Bool) (b : Block) : Silent (b.transfer c i) :=
  checkStatic (checkReady (checkPhase (.next _) b c) b) c

/-! ### The host -/

theorem of_exec (i : Instr) (s : State) : Silent (exec i s) := by
  cases i with
  | wrPrerlo | wrPrerhi => exact (checkPrescale (.next _) _).onBlock s
  | wrCtrDisable | wrCtrEnable => exact (writeControl _ _).onBlock s
  | wrTxr => exact (checkNotPending (.next _) _).onBlock s
  | cmdStartWrite | cmdWrite | cmdRead | cmdReadNackStop | cmdStop | cmdStartWriteStop | cmdWriteStop =>
    exact (transfer _ _ _).onBlock s
  | cmdNop | cmdIack | rdPrerlo | rdPrerhi | rdCtr | rdSr => exact .next _
  | rdRxr => exact ite (.next _) (.next _)
  | wrCtrReserved | cmdReservedBits | cmdIllegal | accUnmapped => exact .refused _
  | cmdUnfoldedStop | cmdAckedReadStop => exact .fault _ rfl

theorem of_act (s : State) (x : Action) : Silent (s.act x) := by
  cases x with
  | write off v => exact of_exec _ s
  | read off => exact of_exec _ s
  | delay n => exact .next _

theorem of_runProc (s : State) (q : Proc) : Silent (s.runProc q) := (of_act s _).mapNext _

theorem of_runOp (s : State) (op : HostOp) : Silent (s.runOp op) := by
  cases op with
  | access w =>
    cases hd : decodeWord w with
    | ok i => exact runOp_access hd s ▸ of_exec i s
    | error e =>
      simp only [State.runOp, hd]
      exact .refused _
  | memWrite off v => exact of_act s (.write off v)
  | memRead off => exact of_act s (.read off)
  | delay n => exact of_act s (.delay n)
  | call c =>
    cases hc : c.begin s.params with
    | ok q => exact runOp_call hc ▸ of_runProc s q
    | error r => exact runOp_call_of_refused hc ▸ .refused r

theorem of_hostStep (s : State) : Silent s.hostStep := by
  unfold State.hostStep
  cases s.host.proc with
  | some q => exact of_runProc s q
  | none =>
    cases s.host.program with
    | cons op rest => exact of_runOp _ op
    | nil => exact .next s

/-- Only the engine's step emits symbols. -/
theorem of_step {s : State} (hf : s.block.fault = none) (ht : ∀ a d, s.turns.head? ≠ some (.complete a d)) :
    Silent (step s) := by
  cases hl : s.turns with
  | nil =>
    rw [step_of_empty_schedule hf hl]
    exact of_hostStep s
  | cons turn rest =>
    cases turn with
    | host =>
      rw [step_of_host_turn hf hl]
      exact of_hostStep _
    | complete a d => exact absurd (by rw [hl, List.head?_cons]) (ht a d)

end Silent

/-- Settles O9: a stop of the host carries no symbols, so the code is all there is to record. -/
theorem stopsOfTheHostArePrecise : Obligations.StopsOfTheHostArePrecise := by
  intro s hf ht
  constructor
  · intro f h
    have silent : f.emitted = [] := Silent.emitted_eq_nil (h ▸ Silent.of_step hf ht)
    rw [stepKept_of_fault h, Block.stopWith, silent, List.append_nil]
  · intro r c h hc
    rw [stepKept_of_refused h]
    simp only [Block.refuseWith, hc]

end Sys2Proof.Machine
end

section
/-! SUPPORT. IACK and a completion in either order (60_exceptions.md R247). -/

namespace Sys2Proof.Machine

/-! ## A completion and the interrupt flag -/

theorem Block.beforeStop_clearIrq (p : Command) (a : Bool) (d : Byte) (b : Block) :
    b.clearIrq.beforeStop p a d = (b.beforeStop p a d).clearIrq := by
  unfold Block.beforeStop Block.readPart Block.writePart Block.startPart
  cases p.sta <;> cases p.wr <;> cases p.rd <;> rfl

section
variable {p : Command} {a : Bool} {d : Byte} {b t : Block} (hp : b.pending = some p)
  (h : b.complete a d = .next t)
include hp h

theorem Block.complete_irqFlag : t.irqFlag = true :=
  congrArg Block.irqFlag (Block.complete_pending_frame hp h)

/-- A completion sets IF without reading it, so that IF was cleared before leaves no trace. -/
theorem Block.complete_clearIrq : b.clearIrq.complete a d = .next t := by
  obtain ⟨hn, -⟩ | ⟨q, hq, ⟨hs, rfl⟩ | ⟨hs, hh, rfl⟩⟩ := Block.complete_next h
  · simp [hp] at hn
  · rw [Block.complete_without_stop a d (b := b.clearIrq) hq hs, Block.beforeStop_clearIrq]
    rfl
  · have free : (b.clearIrq.beforeStop q a d).phase ≠ .heldS := by rwa [Block.beforeStop_clearIrq]
    rw [Block.complete_with_stop a d (b := b.clearIrq) hq hs free, Block.beforeStop_clearIrq]
    rfl

end

/-! ## The two steps -/

theorem runFor_two {s t u : State} (first : step s = .next t) (second : step t = .next u) : runFor 2 s = .next u :=
  (runFor_next first 1).trans (runFor_next second 0)

theorem step_of_completion {s : State} {a : Bool} {d : Byte} {turns : List Turn} {b : Block}
    (hf : s.block.fault = none) (ht : s.turns = .complete a d :: turns) (hc : s.block.complete a d = .next b) :
    step s = .next ((s.withTurns turns).withBlock b) := by
  rw [step_of_complete_turn hf ht, hc, State.onBlock_of_next]

theorem exec_cmdIack (s : State) : exec .cmdIack s = .next (s.withBlock s.block.clearIrq) := rfl

/-- The host's turn with an IACK-only write, the access word 0x3001, next in its program. -/
theorem step_iack_of_host_turn {s : State} {rest : List HostOp} {turns : List Turn} (hf : s.block.fault = none)
    (hq : s.host.proc = none) (hp : s.host.program = .access 0x3001 :: rest) (ht : s.turns = .host :: turns) :
    step s = .next (((s.withTurns turns).withProgram rest).withBlock s.block.clearIrq) := by
  rw [step_runs_program_of_host_turn hf hq hp ht, runOp_access (i := .cmdIack) rfl, exec_cmdIack]
  rfl

/-- Settles O38: the completion sets IF whatever it finds there, IACK clears it, and the later of the two decides. -/
theorem iackAndCompletionTakeEffectInTheirOrder : Obligations.IackAndCompletionTakeEffectInTheirOrder := by
  intro s p a d rest hf hq hprogram hp hcomplete
  obtain ⟨b, hb⟩ := hcomplete
  constructor
  · intro ht
    exact ⟨_, runFor_two (step_iack_of_host_turn hf hq hprogram ht)
      (step_of_completion hf rfl (Block.complete_clearIrq hp hb)), Block.complete_irqFlag hp hb⟩
  · intro ht
    obtain ⟨-, -, kept⟩ := Block.complete_frame hb
    exact ⟨_, runFor_two (step_of_completion hf ht hb)
      (step_iack_of_host_turn (kept.trans hf) hq hprogram rfl), rfl⟩

end Sys2Proof.Machine
end
